-- ==== Sys2Proof/Word.lean ====
section
/-! DEFINITION. The two value widths of the machine (spec/00_scope.md R7, R8): 8-bit register and
memory values, 16-bit register, operand and address values. All are unsigned. -/

namespace Sys2Proof

/-- An 8-bit value: a general register, the flags register or one byte of memory (`XLEN8`, R7). -/
abbrev Byte := BitVec 8

/-- A 16-bit value: `pc`, `sp`, a register pair, an inline operand (`XLEN16`, R7). Sums of two
`Word`s are reduced modulo 65536. -/
abbrev Word := BitVec 16

end Sys2Proof
end

