-- ==== Sys2Proof/Config.lean ====
section
/-! DEFINITION. The parameters of spec/00_scope.md R7 that are not widths. `CAPACITY` and
`TICKS_PER_M` are numbers; `HC` is a type of two rules here, and the rule in force is
`Sys2Proof.Machine.halfCarryRule` in Machine/Flags.lean; `OPMAP` is `Sys2Proof.decodeOpcode` in
Decode.lean. `CTRW` is free above five bits and is taken as unbounded (assumption log 7). -/

namespace Sys2Proof

/-- `CAPACITY` (R7, spec/20_memory.md R50): the number of bytes in the Memory Bus. -/
abbrev capacity : Nat := 65536

/-- `TICKS_PER_M` (R7, R12): clock ticks in one machine cycle. -/
abbrev ticksPerM : Nat := 4

/-- The values of the parameter `HC` (R7, spec/41_alu.md R124). -/
inductive HalfCarryRule where
  /-- Half-carry is the carry out of, or borrow into, bit 3. -/
  | bit3
  /-- Half-carry is never set. -/
  | never
  deriving DecidableEq, Repr

end Sys2Proof
end

