-- ==== Sys2Proof/Machine/Flags.lean ====
section
/-! DEFINITION. The flags register's layout (spec/10_state.md R27, spec/00_scope.md R10) and every
flag computation of the spec (spec/41_alu.md R120, R122, R124). -/

namespace Sys2Proof.Machine

/-- `Z = 0x80`, bit 7. -/
def maskZ : Byte := 0x80#8

/-- `N = 0x40`, bit 6. -/
def maskN : Byte := 0x40#8

/-- `H = 0x20`, bit 5. -/
def maskH : Byte := 0x20#8

/-- `C = 0x10`, bit 4. -/
def maskC : Byte := 0x10#8

/-- A flags register value read flag by flag. -/
structure Flags where
  /-- Zero. -/
  z : Bool
  /-- Subtraction. -/
  n : Bool
  /-- Half-carry. -/
  h : Bool
  /-- Carry. -/
  c : Bool
  deriving DecidableEq, Repr

/-- The mask where the flag is raised, else 0x00. -/
def flagBit (raised : Bool) (mask : Byte) : Byte := if raised then mask else 0x00#8

/-- The byte of `f`: all eight bits are written, bits 3 to 0 as zero (R27, R28). -/
def Flags.toByte (x : Flags) : Byte :=
  flagBit x.z maskZ ||| flagBit x.n maskN ||| flagBit x.h maskH ||| flagBit x.c maskC

/-- The four flags of a byte of `f`. -/
def Flags.ofByte (f : Byte) : Flags where
  z := f.getLsbD 7
  n := f.getLsbD 6
  h := f.getLsbD 5
  c := f.getLsbD 4

/-- `v[3:0]`. -/
def lowNibble (v : Byte) : Nat := v.toNat % 16

/-- The value of the parameter `HC` in force: `bit3`, the value the spec adopts
(spec/00_scope.md R7, spec/92_eei_decisions.md D6). DESIGN CHOICE of the spec, unsafe
(assumption log 1). -/
def halfCarryRule : HalfCarryRule := .bit3

/-- `HalfCarryAdd(x, y)` (R124): carry out of bit 3 of `x + y`. -/
def halfCarryAdd (hc : HalfCarryRule) (x y : Byte) : Bool :=
  decide (hc = .bit3) && decide (lowNibble x + lowNibble y > 15)

/-- `HalfBorrowSub(x, y)` (R124): borrow into bit 3 of `x - y`. -/
def halfBorrowSub (hc : HalfCarryRule) (x y : Byte) : Bool :=
  decide (hc = .bit3) && decide (lowNibble x < lowNibble y)

/-- The flags of `x + y` (R120): zero of the truncated sum, carry of the sum before truncation. -/
def addFlags (hc : HalfCarryRule) (x y : Byte) : Flags where
  z := decide ((x.toNat + y.toNat) % 256 = 0)
  n := false
  h := halfCarryAdd hc x y
  c := decide (x.toNat + y.toNat > 255)

/-- The flags of comparing `x` with `y` (R122, R123): equality, and an unsigned borrow test. -/
def compareFlags (hc : HalfCarryRule) (x y : Byte) : Flags where
  z := decide (x = y)
  n := true
  h := halfBorrowSub hc x y
  c := decide (y.toNat > x.toNat)

end Sys2Proof.Machine
end

