-- ==== Sys2Proof/Syntax.lean ====
section
/-! DEFINITION. The instructions: one constructor for each row of spec/opcode_table.json
(spec/30_encoding.md R84). Register operands are implied by the constructor, as the opcode byte
implies them (R82); the one inline operand is carried as the 16-bit value it denotes. -/

namespace Sys2Proof

/-- The instruction set in scope (spec/30_encoding.md R84). -/
inductive Instr where
  /-- `NOP` (spec/42_nop.md R130). -/
  | nop
  /-- `ADD A,E` (spec/41_alu.md R120). -/
  | addAE
  /-- `CP B` (spec/41_alu.md R122). -/
  | cpB
  /-- `PUSH BC` (spec/43_stack.md R140). -/
  | pushBC
  /-- `POP HL` (spec/43_stack.md R141). -/
  | popHL
  /-- `LD A,(nn)` (spec/44_load_absolute.md R150), with `nn` the absolute byte address. -/
  | ldANn (nn : Word)
  deriving DecidableEq, Repr

end Sys2Proof
end

