-- ==== Sys2Proof/WellFormed.lean ====
section
/-! DEFINITION. Which instruction terms mean something. The one operand of the set is a 16-bit
number used directly as a byte address (spec/30_encoding.md R82), and its type already bounds it, so
every term is a well-formed instruction. What can be ill-formed is where an instruction is put:
spec/70_reset_and_hazards.md R198 says not to place `LD A,(nn)` at address 0xFFFE, where its second
operand byte would lie outside memory (spec/44_load_absolute.md R151). -/

namespace Sys2Proof

/-- Every operand lies in the range its encoding admits (R82). The types see to it, so the check
refuses no term; it is written arm by arm so that a new instruction must answer for itself. -/
def Instr.wellFormed : Instr → Bool
  | .nop => true
  | .addAE => true
  | .cpB => true
  | .pushBC => true
  | .popHL => true
  | .ldANn nn => decide (nn.toNat < capacity)

/-- The instruction may stand with its opcode byte at `start` (R198): every byte that a step reads
of it exists. The operand bytes start at `start + 1` reduced modulo 65536, because `pc` is a
register, and their second address is not reduced (R151). -/
def Instr.wellPlaced (start : Word) : Instr → Bool
  | .nop => true
  | .addAE => true
  | .cpB => true
  | .pushBC => true
  | .popHL => true
  | .ldANn _ => decide ((start + 1#16).toNat + 1 < capacity)

end Sys2Proof
end

