-- ==== Sys2Proof/Decode.lean ====
section
/-! DEFINITION. Encoding and decoding (spec/30_encoding.md): the opcode map, the decoder on bytes,
the encoder, and the reading of an opcode-table word. -/

namespace Sys2Proof

/-! ### Byte order (spec/20_memory.md R58): big-endian -/

/-- `{hi, lo} = hi * 256 + lo` (spec/00_scope.md R8). -/
def beWord (hi lo : Byte) : Word := hi ++ lo

/-- `v[15:8]` (spec/00_scope.md R8). -/
def highByte (v : Word) : Byte := v.extractLsb' 8 8

/-- `v[7:0]` (spec/00_scope.md R8). -/
def lowByte (v : Word) : Byte := v.extractLsb' 0 8

/-! ### Operations: what an opcode byte selects -/

/-- The CPU Core's operations, one for each mapped opcode byte (R83); an operation is an instruction
whose inline operand has not been read yet. -/
inductive Operation where
  /-- `NOP`. -/
  | nop
  /-- `ADD A,E`. -/
  | addAE
  /-- `CP B`. -/
  | cpB
  /-- `PUSH BC`. -/
  | pushBC
  /-- `POP HL`. -/
  | popHL
  /-- `LD A,(nn)`. -/
  | ldANn
  deriving DecidableEq, Repr

/-- `Decode` of R83, over the map `OPMAP` of R84; `none` is `Unmapped` (R86). It reads nothing but
the byte. DESIGN CHOICE of the spec (D2), unsafe: the byte values are not in the document
(assumption log 2). -/
def decodeOpcode (op : Byte) : Option Operation :=
  if op = 0x00#8 then some .nop
  else if op = 0x83#8 then some .addAE
  else if op = 0xB8#8 then some .cpB
  else if op = 0xC5#8 then some .pushBC
  else if op = 0xE1#8 then some .popHL
  else if op = 0xFA#8 then some .ldANn
  else none

/-- The opcode byte of an operation (R84). -/
def Operation.opcode : Operation → Byte
  | .nop => 0x00#8
  | .addAE => 0x83#8
  | .cpB => 0xB8#8
  | .pushBC => 0xC5#8
  | .popHL => 0xE1#8
  | .ldANn => 0xFA#8

/-- `k`, the number of inline operand bytes (R80, R83). -/
def Operation.operandBytes : Operation → Nat
  | .nop => 0
  | .addAE => 0
  | .cpB => 0
  | .pushBC => 0
  | .popHL => 0
  | .ldANn => 2

/-- The operation an instruction is an instance of. -/
def Instr.operation : Instr → Operation
  | .nop => .nop
  | .addAE => .addAE
  | .cpB => .cpB
  | .pushBC => .pushBC
  | .popHL => .popHL
  | .ldANn _ => .ldANn

/-- The length in bytes (R80, R89): the opcode byte and its inline operand bytes. -/
def Instr.length (i : Instr) : Nat := 1 + i.operation.operandBytes

/-! ### The decoder -/

/-- Why bytes are not an instruction. -/
inductive DecodeError where
  /-- The opcode byte has no mapped operation (R86). -/
  | unmapped (op : Byte)
  /-- The bytes end before the instruction does. -/
  | truncated
  deriving DecidableEq, Repr

/-- Read one instruction from the front of `bytes` (R80 to R83), with the bytes after it. The
operand of `LD A,(nn)` is big-endian, high byte first (R82). -/
def decode : List Byte → Except DecodeError (Instr × List Byte)
  | [] => .error .truncated
  | op :: rest =>
    match decodeOpcode op with
    | none => .error (.unmapped op)
    | some .nop => .ok (.nop, rest)
    | some .addAE => .ok (.addAE, rest)
    | some .cpB => .ok (.cpB, rest)
    | some .pushBC => .ok (.pushBC, rest)
    | some .popHL => .ok (.popHL, rest)
    | some .ldANn =>
      match rest with
      | hi :: lo :: after => .ok (.ldANn (beWord hi lo), after)
      | _ => .error .truncated

/-! ### The encoder -/

/-- The bytes of an instruction, opcode at the lowest address (R81, R82, spec/20_memory.md R58). -/
def encode : Instr → List Byte
  | .nop => [0x00#8]
  | .addAE => [0x83#8]
  | .cpB => [0xB8#8]
  | .pushBC => [0xC5#8]
  | .popHL => [0xE1#8]
  | .ldANn nn => [0xFA#8, highByte nn, lowByte nn]

/-! ### Words of the opcode table -/

/-- The longest instruction's length in bytes (R80). -/
def maxLength : Nat := 3

/-- The bytes of an opcode-table word `w` of `nbits` bits, first byte first. The table numbers a
3-byte row as one 24-bit pattern with the opcode byte most significant (R81 and the row's `match`
0xFA0000), so the first byte holds the highest bits (assumption log 11). Bytes past `nbits`, up to
the longest instruction, are zero. -/
def tableBytes (nbits w : Nat) : List Byte :=
  let k := (nbits + 7) / 8
  (List.range k).map (fun j => BitVec.ofNat 8 (w / 256 ^ (k - 1 - j)))
    ++ List.replicate (maxLength - k) 0#8

/-- The instruction the decoder reads from an opcode-table word. -/
def decodeTableWord (nbits w : Nat) : Option Instr :=
  match decode (tableBytes nbits w) with
  | .ok (i, _) => some i
  | .error _ => none

/-! ### Assembler syntax (R91) -/

/-- One hexadecimal digit, upper case. -/
def hexDigit (n : Nat) : String :=
  ["0", "1", "2", "3", "4", "5", "6", "7", "8", "9", "A", "B", "C", "D", "E", "F"].getD n "?"

/-- A 16-bit number as R91 writes it, `0x0010`. -/
def hexWord (v : Word) : String :=
  "0x" ++ hexDigit (v.toNat / 4096) ++ hexDigit (v.toNat / 256 % 16)
    ++ hexDigit (v.toNat / 16 % 16) ++ hexDigit (v.toNat % 16)

/-- The instruction as R91 lists it. -/
def Instr.assembly : Instr → String
  | .nop => "NOP"
  | .addAE => "ADD A,E"
  | .cpB => "CP B"
  | .pushBC => "PUSH BC"
  | .popHL => "POP HL"
  | .ldANn nn => "LD A,(" ++ hexWord nn ++ ")"

end Sys2Proof
end

