-- ==== Sys2Proof/Machine/Memory.lean ====
section
/-! DEFINITION. The Memory Bus array as plain data (spec/20_memory.md R50, R51): a list of
(address, byte) pairs. An address that is not listed reads 0x00, the byte the spec gives every
address at construction (R51). The canonical form lists addresses in rising order, below `capacity`,
each once, and never the byte 0x00, so equal memories are equal lists (assumption log 14). -/

namespace Sys2Proof.Machine

/-- The array's contents. -/
abbrev Memory := List Host.Cell

/-- What an address that nothing has written reads as (R51). -/
def unlistedByte : Byte := 0x00#8

/-- `mem[a]`. -/
def Memory.get : Memory → Nat → Byte
  | [], _ => unlistedByte
  | cell :: rest, a => if cell.1 = a then cell.2 else Memory.get rest a

/-- The list without address `a`: there `a` reads as unlisted. -/
def Memory.erase (m : Memory) (a : Nat) : Memory := m.filter (fun cell => cell.1 != a)

/-- Put a cell before the first higher address. -/
def Memory.insert : Memory → Nat → Byte → Memory
  | [], a, v => [(a, v)]
  | cell :: rest, a, v =>
    if a < cell.1 then (a, v) :: cell :: rest else cell :: Memory.insert rest a v

/-- `mem[a] <- v`, keeping the canonical form: writing the unlisted byte removes the cell. -/
def Memory.set (m : Memory) (a : Nat) (v : Byte) : Memory :=
  if v = unlistedByte then m.erase a else (m.erase a).insert a v

/-- The canonical form. -/
def Memory.wf : Memory → Bool
  | [] => true
  | cell :: rest =>
    decide (cell.1 < capacity) && decide (cell.2 ≠ unlistedByte)
      && rest.all (fun next => decide (cell.1 < next.1)) && Memory.wf rest

end Sys2Proof.Machine
end

