-- ==== Sys2Proof/Machine/State.lean ====
section
/-! DEFINITION. The state of the machine (spec/10_state.md R20), the reasons a step stops
(spec/60_exceptions.md R160 to R163), and the state after reset (R37). -/

namespace Sys2Proof.Machine

/-- The faults (spec/60_exceptions.md R160). A step that raises one has no successor (R165). -/
inductive Fault where
  /-- Raised by a byte access at `addr`, 65536 or above (R161): by the operand fetch of `LD A,(nn)`
  whose opcode stands at 0xFFFE, and by host use of the accessors (R169). Safe: the spec says that
  the machine stops here. -/
  | busFault (addr : Nat)
  /-- Raised by a step whose opcode byte `op`, fetched from `pc`, is unmapped (R162). Safe: the spec
  says that the machine stops here. -/
  | unimplementedOpcode (op : Byte) (pc : Word)
  deriving DecidableEq, Repr

/-- Refusals: no instruction of this model ends in one. -/
inductive Refusal where
  /-- Raised by an arm of `exec` whose instruction has no meaning yet; no arm is left so. Safe. -/
  | notModelled (mnemonic : String)
  deriving DecidableEq, Repr

/-- The architectural state: "exactly the following. No other state exists in the block"
(spec/10_state.md R20). -/
structure State where
  /-- The accumulator (R21). -/
  a : Byte
  /-- General register (R21). -/
  b : Byte
  /-- General register (R21). -/
  c : Byte
  /-- General register (R21). -/
  d : Byte
  /-- General register (R21). -/
  e : Byte
  /-- General register (R21). -/
  h : Byte
  /-- General register (R21). -/
  l : Byte
  /-- Flags, in bits 7 to 4 (R27). -/
  f : Byte
  /-- Program counter (R24). -/
  pc : Word
  /-- Stack pointer (R26). -/
  sp : Word
  /-- Machine cycles of the last operation (R30). -/
  m : Nat
  /-- Clock ticks of the last operation (R30). -/
  t : Nat
  /-- The Memory Bus (R34). -/
  mem : Memory
  deriving DecidableEq, Repr

/-- The state after construction and the power-on Reset (R37, spec/70_reset_and_hazards.md R190,
R191): everything zero, `pc` at 0x0000, no byte of memory written. -/
def State.reset : State where
  a := 0x00#8
  b := 0x00#8
  c := 0x00#8
  d := 0x00#8
  e := 0x00#8
  h := 0x00#8
  l := 0x00#8
  f := 0x00#8
  pc := 0x0000#16
  sp := 0x0000#16
  m := 0
  t := 0
  mem := []

/-- The outcome of an operation or a step. -/
abbrev Result := Host.Outcome State Fault Refusal

end Sys2Proof.Machine
end

