-- ==== Sys2Proof/Machine/Ops.lean ====
section
/-! DEFINITION. The named operations over memory, registers and counters that every meaning is
written with, the one way a fault is taken, and the Reset operation. -/

namespace Sys2Proof.Machine

/-! ### Faults (spec/60_exceptions.md R164 to R167) -/

/-- Take a fault: the whole step is aborted and none of its writes happens, so the outcome carries
no state (R164, R165). There is no trap entry: no vector, no saved register, no handler (R166). -/
def raise (f : Fault) : Result := .fault f

/-- Go on with an access's value, or take the fault it raised. -/
def andThen {α : Type} (access : Except Fault α) (next : α → Result) : Result :=
  match access with
  | .ok x => next x
  | .error f => raise f

/-! ### Byte accessors (spec/20_memory.md R52, R53) -/

/-- `MemRead(addr, 1)` (R52). The address is not reduced before the check (assumption log 4). -/
def State.readByte (s : State) (addr : Nat) : Except Fault Byte :=
  if addr < capacity then .ok (s.mem.get addr) else .error (.busFault addr)

/-- `MemWrite(addr, 1, v)` (R53). -/
def State.writeByte (s : State) (addr : Nat) (v : Byte) : Except Fault State :=
  if addr < capacity then .ok { s with mem := s.mem.set addr v } else .error (.busFault addr)

/-! ### 16-bit accessors (spec/20_memory.md R54 to R57), big-endian (R58) -/

/-- `MemRead(addr, 2)` (R56): two byte reads, the second address not wrapped. -/
def State.readPair (s : State) (addr : Nat) : Except Fault Word :=
  match s.readByte addr with
  | .error f => .error f
  | .ok hi =>
    match s.readByte (addr + 1) with
    | .error f => .error f
    | .ok lo => .ok (beWord hi lo)

/-- `MemWrite(addr, 2, v)` (R57): high byte, then low byte. -/
def State.writePair (s : State) (addr : Nat) (v : Word) : Except Fault State :=
  match s.writeByte addr (highByte v) with
  | .error f => .error f
  | .ok s' => s'.writeByte (addr + 1) (lowByte v)

/-- `ReadWord(w)` (R54): the argument is a word index. -/
def State.readWord (s : State) (w : Nat) : Except Fault Word := s.readPair (2 * w)

/-- `WriteWord(w, v)` (R55). -/
def State.writeWord (s : State) (w : Nat) (v : Word) : Except Fault State := s.writePair (2 * w) v

/-! ### Registers -/

/-- `pc <- v`. -/
def State.setPc (s : State) (v : Word) : State := { s with pc := v }

/-- `sp <- v`. -/
def State.setSp (s : State) (v : Word) : State := { s with sp := v }

/-- `f <- v`. -/
def State.setF (s : State) (v : Byte) : State := { s with f := v }

/-- Advance `pc` past `k` bytes, modulo 65536 (spec/10_state.md R25; assumption log 3). -/
def State.advance (s : State) (k : Word) : State := s.setPc (s.pc + k)

/-- `m <- k ; t <- 4*k` (spec/00_scope.md R11, spec/40_instruction_cycle.md R105): the counters are
overwritten, not added to (spec/10_state.md R30; assumption log 7). -/
def State.charge (s : State) (k : Nat) : State := { s with m := k, t := ticksPerM * k }

/-! ### The stack (spec/43_stack.md R144): full-descending, `sp` modulo 65536 (assumption log 3) -/

/-- Decrement `sp`, then write `v` at it (R140). -/
def State.pushByte (s : State) (v : Byte) : Except Fault State :=
  match s.writeByte (s.sp - 1#16).toNat v with
  | .error f => .error f
  | .ok s' => .ok (s'.setSp (s.sp - 1#16))

/-- Read the byte at `sp`, then increment `sp` (R141). -/
def State.popByte (s : State) : Except Fault (Byte × State) :=
  match s.readByte s.sp.toNat with
  | .error f => .error f
  | .ok v => .ok (v, s.setSp (s.sp + 1#16))

/-! ### Reset (spec/70_reset_and_hazards.md R192) -/

/-- The Reset operation: every register, flag and counter zero, memory not touched (R192;
assumption log 6). It has no opcode; the host invokes it between steps. -/
def State.resetRegisters (s : State) : State := { State.reset with mem := s.mem }

/-! ### Where a step reads an instruction's bytes (spec/40_instruction_cycle.md R100, R102) -/

/-- The byte addresses of the longest instruction at `pc`: the opcode at `pc`; the operand bytes
from `pc + 1`, reduced because it is held in a register (R102), and the address after that, which is
not reduced (spec/44_load_absolute.md R151). -/
def State.instrAddresses (s : State) : List Nat :=
  [s.pc.toNat, (s.pc + 1#16).toNat, (s.pc + 1#16).toNat + 1]

/-- The bytes at those addresses that exist, in order: what the decoder is shown. -/
def State.instrBytes (s : State) : List Byte :=
  (s.instrAddresses.filter (fun a => decide (a < capacity))).map s.mem.get

/-- Store bytes, in order, at those of the addresses that exist. -/
def Memory.place (m : Memory) (addresses : List Nat) (bytes : List Byte) : Memory :=
  (addresses.zip bytes).foldl
    (fun mem cell => if cell.1 < capacity then mem.set cell.1 cell.2 else mem) m

end Sys2Proof.Machine
end

