-- ==== Sys2Proof/Machine/Operands.lean ====
section
/-! DEFINITION. Operand forms: the general registers by name (spec/10_state.md R21), the register
pairs as views (R23), and the inline operand of an operation (spec/30_encoding.md R80, R82). -/

namespace Sys2Proof.Machine

/-- The names of the seven general registers (R21). -/
inductive Reg8 where
  /-- The accumulator. -/
  | a
  /-- Register `b`. -/
  | b
  /-- Register `c`. -/
  | c
  /-- Register `d`. -/
  | d
  /-- Register `e`. -/
  | e
  /-- Register `h`. -/
  | h
  /-- Register `l`. -/
  | l
  deriving DecidableEq, Repr

/-- Read a general register. -/
def State.reg (s : State) : Reg8 → Byte
  | .a => s.a
  | .b => s.b
  | .c => s.c
  | .d => s.d
  | .e => s.e
  | .h => s.h
  | .l => s.l

/-- `r <- v`. -/
def State.setReg (s : State) (r : Reg8) (v : Byte) : State :=
  match r with
  | .a => { s with a := v }
  | .b => { s with b := v }
  | .c => { s with c := v }
  | .d => { s with d := v }
  | .e => { s with e := v }
  | .h => { s with h := v }
  | .l => { s with l := v }

/-- The names of the register pairs (R23). -/
inductive Pair where
  /-- `{b, c}`. -/
  | bc
  /-- `{d, e}`. -/
  | de
  /-- `{h, l}`. -/
  | hl
  deriving DecidableEq, Repr

/-- The high-order register of a pair, the first-named one (R23). -/
def Pair.high : Pair → Reg8
  | .bc => .b
  | .de => .d
  | .hl => .h

/-- The low-order register of a pair (R23). -/
def Pair.low : Pair → Reg8
  | .bc => .c
  | .de => .e
  | .hl => .l

/-- A pair read as one 16-bit value; it is a view, not separate state (R23). -/
def State.pair (s : State) (p : Pair) : Word := beWord (s.reg p.high) (s.reg p.low)

/-- Push a register pair: the high-order register first (spec/43_stack.md R140). -/
def State.pushPair (s : State) (p : Pair) : Except Fault State :=
  match s.pushByte (s.reg p.high) with
  | .error f => .error f
  | .ok s' => s'.pushByte (s.reg p.low)

/-- Pop into a register pair: the low-order register first (spec/43_stack.md R141). -/
def State.popPair (s : State) (p : Pair) : Except Fault State :=
  match s.popByte with
  | .error f => .error f
  | .ok (lo, s1) =>
    match (s1.setReg p.low lo).popByte with
    | .error f => .error f
    | .ok (hi, s2) => .ok (s2.setReg p.high hi)

/-- Read an operation's inline operand at `pc`, which the step has already advanced past the opcode
(spec/40_instruction_cycle.md R109): the operation becomes an instruction. Only `LD A,(nn)` has one,
`nn = MemRead(pc, 2)` (spec/30_encoding.md R82), whose second byte address is not wrapped
(spec/44_load_absolute.md R151; assumption logs 4 and 10). -/
def State.readOperand (s : State) : Operation → Except Fault Instr
  | .nop => .ok .nop
  | .addAE => .ok .addAE
  | .cpB => .ok .cpB
  | .pushBC => .ok .pushBC
  | .popHL => .ok .popHL
  | .ldANn =>
    match s.readPair s.pc.toNat with
    | .error f => .error f
    | .ok nn => .ok (.ldANn nn)

end Sys2Proof.Machine
end

