-- ==== Sys2Proof/Machine/Alu.lean ====
section
/-! DEFINITION. The arithmetic instructions, spec/41_alu.md. Each is entered with `pc` already past
the opcode (spec/40_instruction_cycle.md R100). -/

namespace Sys2Proof.Machine

/-- `ADD A,E` (R120, R121): the truncated sum, all of `f` written, cost 1/4. -/
def execAddAE (s : State) : Result :=
  let sum := s.a.toNat + s.e.toNat
  let flags := (addFlags halfCarryRule s.a s.e).toByte
  .next (((s.setReg .a (BitVec.ofNat 8 sum)).setF flags).charge 1)

/-- `CP B` (R122, R123): all of `f` written, `a` and `b` left unmodified, cost 1/4. -/
def execCpB (s : State) : Result :=
  .next ((s.setF (compareFlags halfCarryRule s.a s.b).toByte).charge 1)

end Sys2Proof.Machine
end

