-- ==== Sys2Proof/Machine/Load.lean ====
section
/-! DEFINITION. The load instruction, spec/44_load_absolute.md. -/

namespace Sys2Proof.Machine

/-- `LD A,(nn)` (R150), with `nn` already read from the two bytes at `pc` by `State.readOperand`:
`pc` past the operand, then the byte at `nn` into `a`; `f` is not written; cost 4/16. -/
def execLdANn (nn : Word) (s : State) : Result :=
  andThen (s.readByte nn.toNat) fun v =>
    .next (((s.advance 2#16).setReg .a v).charge 4)

end Sys2Proof.Machine
end

