-- ==== Sys2Proof/Machine/Nop.lean ====
section
/-! DEFINITION. NOP, spec/42_nop.md. -/

namespace Sys2Proof.Machine

/-- `NOP` (R130, R131): the cost 1/4 is written and nothing else changes. -/
def execNop (s : State) : Result := .next (s.charge 1)

end Sys2Proof.Machine
end

