-- ==== Sys2Proof/Machine/Stack.lean ====
section
/-! DEFINITION. The stack instructions, spec/43_stack.md. -/

namespace Sys2Proof.Machine

/-- `PUSH BC` (R140): `b` one below `sp`, `c` two below, `sp` down by two, cost 3/12. -/
def execPushBC (s : State) : Result :=
  andThen (s.pushPair .bc) fun s' => .next (s'.charge 3)

/-- `POP HL` (R141): `l` from `sp`, `h` from one above, `sp` up by two, cost 3/12. -/
def execPopHL (s : State) : Result :=
  andThen (s.popPair .hl) fun s' => .next (s'.charge 3)

end Sys2Proof.Machine
end

