-- ==== Sys2Proof/Machine/Dispatch.lean ====
section
/-! DEFINITION. Dispatch: each instruction to its one meaning (spec/40_instruction_cycle.md R103). -/

namespace Sys2Proof.Machine

def exec (i : Instr) (s : State) : Host.Outcome State Fault Refusal :=
  match i with
  | .nop => Sys2Proof.Machine.execNop s
  | .addAE => Sys2Proof.Machine.execAddAE s
  | .cpB => Sys2Proof.Machine.execCpB s
  | .pushBC => Sys2Proof.Machine.execPushBC s
  | .popHL => Sys2Proof.Machine.execPopHL s
  | .ldANn nn => Sys2Proof.Machine.execLdANn nn s

end Sys2Proof.Machine
end

