-- ==== Sys2Proof/Machine/Cycle.lean ====
section
/-! DEFINITION. The instruction cycle (spec/40_instruction_cycle.md R100 to R104): opcode fetch,
`pc` advance, decode, operand fetch, dispatch. Machine/Step.lean only calls it. -/

namespace Sys2Proof.Machine

/-- Run one operation at the current `pc` (R109): read its inline operand, then execute it. A host
may do this directly, without the fetch and without the step's `pc` advance (R103,
spec/70_reset_and_hazards.md R197). -/
def invoke (o : Operation) (s : State) : Result :=
  andThen (s.readOperand o) fun i => exec i s

/-- One instruction cycle (R100): the opcode byte at `pc` (R101); an unmapped one raises
`UnimplementedOpcode` with nothing written (R104); otherwise `pc` advances by 1 modulo 65536 (R102)
and the operation runs. -/
def cycle (s : State) : Result :=
  andThen (s.readByte s.pc.toNat) fun op =>
    match decodeOpcode op with
    | none => raise (.unimplementedOpcode op s.pc)
    | some o => invoke o (s.advance 1#16)

end Sys2Proof.Machine
end

