-- ==== Sys2Proof/Machine/Step.lean ====
section
/-! DEFINITION. The step of the machine, and placing an opcode-table word where it is fetched. -/

namespace Sys2Proof.Machine

/-- One step: one instruction cycle (spec/40_instruction_cycle.md R100). -/
def step (s : State) : Host.Outcome State Fault Refusal := cycle s

/-- `s` with the opcode-table word's instruction stored where `step` fetches its next one: the
opcode byte at `pc`, the operand bytes after it, as far as those addresses exist (assumption
logs 11 and 12). -/
def State.withFetchWord (s : State) (nbits w : Nat) : State :=
  { s with mem := s.mem.place s.instrAddresses (tableBytes nbits w) }

end Sys2Proof.Machine
end

