-- ==== Sys2Proof/Machine/Accesses.lean ====
section
/-! DEFINITION. The memory accesses an instruction makes, in order (spec/20_memory.md R60). Every
access is one byte. The meanings do not use this list: it is the spec's table beside them, for
statements about what a step reads and writes. An access that faults ends the list. -/

namespace Sys2Proof.Machine

/-- What an access is for. -/
inductive AccessKind where
  /-- The opcode fetch. -/
  | fetch
  /-- A read: an operand byte, a stack byte or the loaded byte. -/
  | read
  /-- A write. -/
  | write
  deriving DecidableEq, Repr

/-- One byte access. -/
structure Access where
  /-- What it is for. -/
  kind : AccessKind
  /-- Its byte address. -/
  addr : Nat
  deriving DecidableEq, Repr

/-- The accesses of an operation, entered with `pc` past the opcode (R60). -/
def operationAccesses (o : Operation) (s : State) : List Access :=
  match o with
  | .nop => []
  | .addAE => []
  | .cpB => []
  | .pushBC => [⟨.write, (s.sp - 1#16).toNat⟩, ⟨.write, (s.sp - 2#16).toNat⟩]
  | .popHL => [⟨.read, s.sp.toNat⟩, ⟨.read, (s.sp + 1#16).toNat⟩]
  | .ldANn =>
    [⟨.read, s.pc.toNat⟩, ⟨.read, s.pc.toNat + 1⟩] ++
      match s.readPair s.pc.toNat with
      | .error _ => []
      | .ok nn => [⟨.read, nn.toNat⟩]

/-- The accesses of a step: the opcode fetch, then those of the operation it selects (R60, R100). -/
def stepAccesses (s : State) : List Access :=
  ⟨.fetch, s.pc.toNat⟩ ::
    match decodeOpcode (s.mem.get s.pc.toNat) with
    | none => []
    | some o => operationAccesses o (s.advance 1#16)

end Sys2Proof.Machine
end

