-- ==== Sys2Proof/Machine/Regions.lean ====
section
/-! DEFINITION. The named regions of the address space (spec/20_memory.md R64). They are names only:
no read or write anywhere in the model looks at them (R65; assumption log 8). -/

namespace Sys2Proof.Machine

/-- The regions, by the document's constants (R64). -/
inductive Region where
  /-- `CARTRIDGE_ROM_0`. -/
  | cartridgeRom0
  /-- `CARTRIDGE_ROM_1`. -/
  | cartridgeRom1
  /-- `GRAPHICS_RAM`. -/
  | graphicsRam
  /-- `CARTRIDGE_EXTERNAL_RAM`. -/
  | cartridgeExternalRam
  /-- `WORKING_RAM`. -/
  | workingRam
  /-- `WORKING_RAM_SHADOW`. -/
  | workingRamShadow
  /-- `GRAPHICS_SPRITE_INFO`. -/
  | graphicsSpriteInfo
  /-- `MEMORY_MAPPED_IO`. -/
  | memoryMappedIo
  /-- `ZERO_PAGE_RAM`. -/
  | zeroPageRam
  deriving DecidableEq, Repr

/-- A region's first address, the document's constant (R64). -/
def Region.first : Region → Nat
  | .cartridgeRom0 => 0
  | .cartridgeRom1 => 16384
  | .graphicsRam => 32768
  | .cartridgeExternalRam => 40960
  | .workingRam => 49152
  | .workingRamShadow => 57344
  | .graphicsSpriteInfo => 65024
  | .memoryMappedIo => 65280
  | .zeroPageRam => 65408

/-- A region's last address (R64; the spec derives it, spec/92_eei_decisions.md D22). -/
def Region.last : Region → Nat
  | .cartridgeRom0 => 0x3FFF
  | .cartridgeRom1 => 0x7FFF
  | .graphicsRam => 0x9FFF
  | .cartridgeExternalRam => 0xBFFF
  | .workingRam => 0xDFFF
  | .workingRamShadow => 0xFDFF
  | .graphicsSpriteInfo => 0xFEFF
  | .memoryMappedIo => 0xFF7F
  | .zeroPageRam => 0xFFFF

/-- The regions in address order. -/
def Region.all : List Region :=
  [.cartridgeRom0, .cartridgeRom1, .graphicsRam, .cartridgeExternalRam, .workingRam,
    .workingRamShadow, .graphicsSpriteInfo, .memoryMappedIo, .zeroPageRam]

/-- The address lies in the region. -/
def Region.holds (r : Region) (addr : Nat) : Bool := decide (r.first ≤ addr) && decide (addr ≤ r.last)

/-- The region an address lies in, if it is an address of the array. -/
def regionOf (addr : Nat) : Option Region := Region.all.find? (fun r => r.holds addr)

end Sys2Proof.Machine
end

