-- ==== Sys2Proof/Machine/HostInterface.lean ====
section
/-! DEFINITION. What the host may do (spec/70_reset_and_hazards.md R190, R196, R197): set a machine
up before a run, and during a run step it, reset it or invoke an operation directly, between steps
only. A fault is recorded beside the pre-step state and never cleared
(spec/60_exceptions.md R165; assumption logs 5, 9 and 15). R165 speaks of a step: what an
out-of-range access of the host itself leaves is the model's choice (assumption log 18). -/

namespace Sys2Proof.Machine

/-! ### Before a run (R195, R196) -/

/-- One thing the host may do before a run (R196). The restrictions "`f[3:0]` must be zero" and
"`t = 4 * m`" are in the form of the moves: `f` is given by its four flags, the counters by `m`. -/
inductive HostSetup where
  /-- `MemWrite(addr, 1, v)`. -/
  | writeByte (addr : Nat) (v : Byte)
  /-- `WriteWord(w, v)`. -/
  | writeWord (w : Nat) (v : Word)
  /-- Set a general register. -/
  | setReg (r : Reg8) (v : Byte)
  /-- Set the flags. -/
  | setFlags (x : Flags)
  /-- Set the program counter. -/
  | setPc (v : Word)
  /-- Set the stack pointer. -/
  | setSp (v : Word)
  /-- Set the counters to `m` and `4 * m`. -/
  | setCounters (m : Nat)
  deriving DecidableEq, Repr

/-- The effect of one set-up move (R196). -/
def State.setup (s : State) : HostSetup → Except Fault State
  | .writeByte addr v => s.writeByte addr v
  | .writeWord w v => s.writeWord w v
  | .setReg r v => .ok (s.setReg r v)
  | .setFlags x => .ok (s.setF x.toByte)
  | .setPc v => .ok (s.setPc v)
  | .setSp v => .ok (s.setSp v)
  | .setCounters m => .ok (s.charge m)

/-- Set-up moves in order, stopping at the first that faults. A set-up write outside the array (R169)
ends the set-up: the fault is the answer, with no state and so no `Session`, and the host constructs
again. DESIGN CHOICE, safe: R165 speaks only of a step (assumption log 18). -/
def State.setupAll : State → List HostSetup → Except Fault State
  | s, [] => .ok s
  | s, x :: rest =>
    match s.setup x with
    | .error f => .error f
    | .ok s' => s'.setupAll rest

/-! ### During a run (R197) -/

/-- Why a machine takes no further step. -/
inductive Stop where
  /-- A fault was raised (spec/60_exceptions.md R165). -/
  | fault (f : Fault)
  /-- The model gave the instruction no meaning; no instruction of this model does so. -/
  | refused (r : Refusal)
  deriving DecidableEq, Repr

/-- A machine as the host holds it: the architectural state, and the one piece of bookkeeping
beside it (spec/10_state.md R35), the recorded fault with the pre-step state. -/
structure Session where
  /-- The architectural state. -/
  state : State
  /-- The fault that ended the run, if one did. -/
  stop : Option Stop
  deriving DecidableEq, Repr

/-- `new()` (R190): the reset state, no fault recorded. -/
def Session.powerOn : Session := ⟨State.reset, none⟩

/-- What the host may do to a machine during a run (R197). Reads have no effect and stopping is
making no more moves, so neither is a move. A host read outside the array (R169) answers its fault to
the host; it is not recorded in the `Session` and ends no run. DESIGN CHOICE, unsafe: R165 speaks only
of a step (assumption log 18). -/
inductive HostMove where
  /-- Take one step. -/
  | step
  /-- The Reset operation. -/
  | reset
  /-- Run one operation directly, without the fetch and the `pc` advance. -/
  | invoke (o : Operation)
  deriving DecidableEq, Repr

/-- Keep an outcome: the next state, or the stop beside the state before it (R164, R165). -/
def Session.record (x : Session) : Result → Session
  | .next s => { x with state := s }
  | .fault f => { x with stop := some (.fault f) }
  | .refused r => { x with stop := some (.refused r) }

/-- One host move; a stopped machine makes none, and Reset does not start it again (R165). -/
def Session.move (x : Session) (move : HostMove) : Session :=
  match x.stop with
  | some _ => x
  | none =>
    match move with
    | .step => x.record (Sys2Proof.Machine.step x.state)
    | .reset => { x with state := x.state.resetRegisters }
    | .invoke o => x.record (Sys2Proof.Machine.invoke o x.state)

/-- Host moves in order. -/
def Session.moves (x : Session) (moves : List HostMove) : Session := moves.foldl Session.move x

end Sys2Proof.Machine
end

