-- ==== Sys2Proof/Safety.lean ====
section
/-! DEFINITION. What claims call a legal state, a step that does not fault and a completed run
(spec/70_reset_and_hazards.md R196, R198, R199, spec/60_exceptions.md R165). -/

namespace Sys2Proof.Machine

/-- `f[3:0] = 0` (spec/10_state.md R28, spec/70_reset_and_hazards.md R199). -/
abbrev State.FlagsClean (s : State) : Prop := lowNibble s.f = 0

/-- `t = 4 * m` (spec/10_state.md R31). -/
abbrev State.CountersAgree (s : State) : Prop := s.t = 4 * s.m

/-- The memory list is in its canonical form (assumption log 14). -/
abbrev State.MemoryCanonical (s : State) : Prop := s.mem.wf = true

/-- The invariant of the machine, and what makes a start state legal (R196). -/
abbrev State.Inv (s : State) : Prop := s.FlagsClean ∧ s.CountersAgree ∧ s.MemoryCanonical

/-- The two things a program must respect (R198): execution does not reach an unmapped byte, and
`LD A,(nn)` does not stand at 0xFFFE. -/
def State.stepSafe (s : State) : Bool :=
  match decodeOpcode (s.mem.get s.pc.toNat) with
  | none => false
  | some o => !(decide (o = .ldANn) && decide (s.pc = 0xFFFE#16))

/-- `n` steps, stopping at the first that does not answer a next state
(spec/40_instruction_cycle.md R106, R108). -/
def run : Nat → State → Result
  | 0, s => .next s
  | n + 1, s =>
    match step s with
    | .next s' => run n s'
    | .fault f => .fault f
    | .refused r => .refused r

/-- A completed run of `n` steps from `s` to `s'`: no fault was raised (spec/60_exceptions.md R165,
spec/40_instruction_cycle.md R108). -/
def Completes (n : Nat) (s s' : State) : Prop := run n s = .next s'

end Sys2Proof.Machine
end

