-- ==== Sys2Proof/Certificates/Slice0/Obligations.lean ====
section
/-! DEFINITION. The statements for the provers, from the numbered rules of spec/. Where a clause
rests on a decision that the spec marks as its own (D<n> of spec/92_eei_decisions.md) or on a row of
the assumption log, the docstring says so. -/

open Sys2Proof Sys2Proof.Machine

/-! ### Encoding and decoding (spec/30_encoding.md) -/

/-- Decoding an encoded instruction gives it back, with every value of its operand and whatever bytes
follow. The opcode values are the spec's decision D2 (log 2), the operand's order is R82. -/
def Obligations.DecodeOfEncode : Prop :=
  ∀ (i : Instr) (rest : List Byte), decode (encode i ++ rest) = .ok (i, rest)

/-- The bytes an instruction was decoded from are its encoding: each byte string has one meaning and
each instruction one byte string (log 2). -/
def Obligations.EncodeOfDecode : Prop :=
  ∀ (bytes rest : List Byte) (i : Instr), decode bytes = .ok (i, rest) → bytes = encode i ++ rest

/-- The opcode map takes exactly the six bytes of the table to the six operations (R83; the values are
decision D2, log 2). -/
def Obligations.OpcodeMapIsTheTable : Prop :=
  ∀ (op : Byte) (o : Operation), decodeOpcode op = some o ↔
    (op = 0x00#8 ∧ o = .nop) ∨ (op = 0x83#8 ∧ o = .addAE) ∨ (op = 0xB8#8 ∧ o = .cpB) ∨
    (op = 0xC5#8 ∧ o = .pushBC) ∨ (op = 0xE1#8 ∧ o = .popHL) ∨ (op = 0xFA#8 ∧ o = .ldANn)

/-- The unmapped bytes are the six ranges R86 lists, and a byte string that begins with one is refused
by name (decisions D2 and D3, logs 2 and 5). -/
def Obligations.UnmappedBytesAreRefused : Prop :=
  ∀ (op : Byte) (rest : List Byte), decode (op :: rest) = .error (.unmapped op) ↔
    (0x01 ≤ op.toNat ∧ op.toNat ≤ 0x82) ∨ (0x84 ≤ op.toNat ∧ op.toNat ≤ 0xB7) ∨
    (0xB9 ≤ op.toNat ∧ op.toNat ≤ 0xC4) ∨ (0xC6 ≤ op.toNat ∧ op.toNat ≤ 0xE0) ∨
    (0xE2 ≤ op.toNat ∧ op.toNat ≤ 0xF9) ∨ (0xFB ≤ op.toNat ∧ op.toNat ≤ 0xFF)

/-- Words written out from the encodings of R82 and R84 decode to the instructions they stand for
(decision D2, log 2). -/
def Obligations.WrittenOutWordsDecode : Prop :=
  decode [0x00#8] = .ok (.nop, []) ∧
  decode [0x83#8] = .ok (.addAE, []) ∧
  decode [0xB8#8] = .ok (.cpB, []) ∧
  decode [0xC5#8] = .ok (.pushBC, []) ∧
  decode [0xE1#8] = .ok (.popHL, []) ∧
  decode [0xFA#8, 0x00#8, 0x10#8] = .ok (.ldANn 0x0010#16, []) ∧
  decode [0xFA#8, 0xC1#8, 0x23#8] = .ok (.ldANn 0xC123#16, []) ∧
  decode [0xFA#8, 0xFF#8, 0x80#8] = .ok (.ldANn 0xFF80#16, [])

/-- The length of an instruction is 1 or 3 bytes and is told by its first byte alone (30_encoding.md
sections 1 and 5; which byte is the long one is decision D2, log 2). -/
def Obligations.LengthIsToldByTheOpcodeByte : Prop :=
  ∀ (op : Byte) (xs ys rx ry : List Byte) (i j : Instr),
    decode (op :: xs) = .ok (i, rx) → decode (op :: ys) = .ok (j, ry) →
      (xs.length + 1 = i.length + rx.length) ∧ i.length = j.length ∧
      i.length = (if op = 0xFA#8 then 3 else 1)

/-- An instruction is ill-placed exactly when it is `LD A,(nn)` with its opcode at 0xFFFE (R198). The
operand address rests on decisions D4 and D8 (logs 3 and 4). -/
def Obligations.OnlyLdAtTheTopIsIllPlaced : Prop :=
  ∀ (i : Instr) (start : Word),
    i.wellPlaced start = false ↔ start = 0xFFFE#16 ∧ ∃ nn, i = .ldANn nn

/-- An opcode-table word stored with `withFetchWord` is the instruction the next step runs, wherever
it may stand. The numbering of the word is the model's reading (log 11). -/
def Obligations.PlacedWordIsRunNext : Prop :=
  ∀ (s : State) (nbits w : Nat) (i : Instr),
    decodeTableWord nbits w = some i → i.wellPlaced s.pc = true →
      step (s.withFetchWord nbits w) = exec i ((s.withFetchWord nbits w).setPc (s.pc + 1#16))

/-! ### The instruction cycle (spec/40_instruction_cycle.md) -/

/-- A step runs the decoded instruction: when the bytes at `pc` decode to `i`, the step is `i` on the
state whose `pc` is past the opcode. The bytes are the opcode at `pc`, the byte at `pc + 1` modulo
65536, and the byte after that if it exists (decisions D4 and D8, logs 3, 4 and 10). -/
def Obligations.StepRunsTheDecodedInstruction : Prop :=
  ∀ s : State,
    (s.instrBytes = s.mem.get s.pc.toNat :: s.mem.get (s.pc + 1#16).toNat ::
      (if (s.pc + 1#16).toNat + 1 < 65536 then [s.mem.get ((s.pc + 1#16).toNat + 1)] else [])) ∧
    ∀ (i : Instr) (rest : List Byte), decode s.instrBytes = .ok (i, rest) →
      i.wellFormed = true ∧ step s = exec i (s.setPc (s.pc + 1#16))

/-- What a step does when the bytes at `pc` are no instruction: an unmapped opcode raises
`UnimplementedOpcode`, an operand that runs off the array raises `BusFault(65536)` (decisions D3 and
D8, logs 4 and 5). -/
def Obligations.StepOnUndecodedBytesFaults : Prop :=
  ∀ s : State,
    (∀ op, decode s.instrBytes = .error (.unmapped op) →
      step s = .fault (.unimplementedOpcode op s.pc)) ∧
    (decode s.instrBytes = .error .truncated → step s = .fault (.busFault 65536))

/-- The step selects the operation from the opcode byte alone and invokes it once, and a host that
invokes the operation directly gets the operation's rule alone, without the `pc` advance
(40_instruction_cycle.md section 1). The wrap of the advance is decision D4 (log 3), the recording of
the fault decision D10 (log 15). -/
def Obligations.DispatchInvokesTheSelectedOperation : Prop :=
  (∀ (s : State) (o : Operation), decodeOpcode (s.mem.get s.pc.toNat) = some o →
    step s = invoke o { s with pc := s.pc + 1#16 }) ∧
  (∀ (s : State) (o : Operation) (s' : State), invoke o s = .next s' →
    (Session.mk s none).move (.invoke o) = ⟨s', none⟩) ∧
  (∀ (s : State) (o : Operation) (f : Fault), invoke o s = .fault f →
    (Session.mk s none).move (.invoke o) = ⟨s, some (.fault f)⟩)

/-- A step answers a next state exactly in the states where a program respects the two rules of R198:
the opcode byte is mapped, and `LD A,(nn)` is not at 0xFFFE (decisions D3, D4, D8; logs 3, 4, 5). -/
def Obligations.SafeStepsAreTheOnesThatComplete : Prop :=
  ∀ s : State, s.stepSafe = true ↔ ∃ s', step s = .next s'

/-- The faults a step can raise are the two of the table of R169, each exactly when it says, and no
step is refused (decisions D3, D4, D8; logs 3, 4, 5). -/
def Obligations.StepFaultsExactlyWhenListed : Prop :=
  (∀ (s : State) (f : Fault), step s = .fault f ↔
    (decodeOpcode (s.mem.get s.pc.toNat) = none ∧
      f = .unimplementedOpcode (s.mem.get s.pc.toNat) s.pc) ∨
    (s.mem.get s.pc.toNat = 0xFA#8 ∧ s.pc = 0xFFFE#16 ∧ f = .busFault 65536)) ∧
  ∀ (s : State) (r : Refusal), step s ≠ .refused r

/-- After a step `pc` is its old value plus the instruction's length modulo 65536: control flow is
linear (R107; the wrap is decision D4, log 3). -/
def Obligations.ControlFlowIsLinear : Prop :=
  ∀ s s' : State, step s = .next s' →
    s'.pc = s.pc + (if s.mem.get s.pc.toNat = 0xFA#8 then 3#16 else 1#16)

/-- Every instruction overwrites `m` and `t` with its own fixed cost, Reset with zero, and a step that
raises a fault leaves them as they were in the state kept beside it (40_instruction_cycle.md section
2). That the counters are overwritten and not added to is decision D13 (log 7); that a faulting step
writes nothing and its state is kept is decision D10 (logs 5 and 15). -/
def Obligations.CostsAreTheTable : Prop :=
  (∀ (s : State) (nn : Word),
    (∃ s', exec .nop s = .next s' ∧ s'.m = 1 ∧ s'.t = 4) ∧
    (∃ s', exec .addAE s = .next s' ∧ s'.m = 1 ∧ s'.t = 4) ∧
    (∃ s', exec .cpB s = .next s' ∧ s'.m = 1 ∧ s'.t = 4) ∧
    (∃ s', exec .pushBC s = .next s' ∧ s'.m = 3 ∧ s'.t = 12) ∧
    (∃ s', exec .popHL s = .next s' ∧ s'.m = 3 ∧ s'.t = 12) ∧
    (∃ s', exec (.ldANn nn) s = .next s' ∧ s'.m = 4 ∧ s'.t = 16)) ∧
  (∀ s : State, s.resetRegisters.m = 0 ∧ s.resetRegisters.t = 0) ∧
  ∀ (s : State) (f : Fault), step s = .fault f →
    ((Session.mk s none).move .step).state.m = s.m ∧ ((Session.mk s none).move .step).state.t = s.t

/-- Memory that lists nothing is an unbroken run of NOPs: from any state with such memory every number
of steps completes, each advancing `pc` by one modulo 65536 and writing the cost 1/4 (R88, which the
spec marks as its own derivation; D2 and D4, logs 2 and 3). -/
def Obligations.EmptyMemoryIsARunOfNops : Prop :=
  ∀ (s : State) (n : Nat), s.mem = [] →
    Completes (n + 1) s { s with pc := s.pc + BitVec.ofNat 16 (n + 1), m := 1, t := 4 }

/-! ### Instructions -/

/-- NOP writes its cost 1/4 and changes nothing else (42_nop.md); over the whole step `pc` goes up by 1, to
0x0000 from 0xFFFF. The opcode value and the wrap are the spec's decisions D2 and D4 (logs 2, 3). -/
def Obligations.NopOnlyWritesItsCost : Prop :=
  encode .nop = [0x00#8] ∧
  (∀ s : State, exec .nop s = .next { s with m := 1, t := 4 }) ∧
  (∀ s : State, s.mem.get s.pc.toNat = 0x00#8 →
    step s = .next { s with pc := s.pc + 1#16, m := 1, t := 4 })

/-- ADD A,E in full: the truncated sum in `a`, all eight bits of `f` written, cost 1/4, everything else
unchanged (41_alu.md section 1). The half-carry bit is the spec's decision D6 (log 1). -/
def Obligations.AddResult : Prop :=
  ∀ s : State, exec .addAE s = .next
    { s with
      a := s.a + s.e
      f := (if (s.a.toNat + s.e.toNat) % 256 = 0 then 0x80#8 else 0x00#8) |||
        (if s.a.toNat % 16 + s.e.toNat % 16 > 15 then 0x20#8 else 0x00#8) |||
        (if s.a.toNat + s.e.toNat > 255 then 0x10#8 else 0x00#8)
      m := 1
      t := 4 }

/-- R121: the accumulator after ADD A,E is the truncated sum in every case, so it is zero after a carry
only where the truncated sum itself is zero. -/
def Obligations.AddNeverZeroesOnCarry : Prop :=
  ∀ s : State, ∃ s', exec .addAE s = .next s' ∧
    s'.a.toNat = (s.a.toNat + s.e.toNat) % 256 ∧
    (s'.a = 0x00#8 → s.a.toNat + s.e.toNat = 0 ∨ s.a.toNat + s.e.toNat = 256)

/-- CP B in full: all eight bits of `f` written, `a` and `b` left unmodified, cost 1/4, everything else
unchanged (41_alu.md section 2). The half-carry bit is the spec's decision D6 (log 1). -/
def Obligations.CompareResult : Prop :=
  ∀ s : State, exec .cpB s = .next
    { s with
      f := 0x40#8 |||
        (if s.a = s.b then 0x80#8 else 0x00#8) |||
        (if s.a.toNat % 16 < s.b.toNat % 16 then 0x20#8 else 0x00#8) |||
        (if s.b.toNat > s.a.toNat then 0x10#8 else 0x00#8)
      m := 1
      t := 4 }

/-- CP B tests equality and the unsigned order (41_alu.md section 2; C5): Z is set exactly when the
operands are equal, which is when their difference modulo 256 is zero, and C exactly when `b > a`. A
test of bit 7 of the difference gives the same C exactly when `a - b` lies from -128 to 127 (log 16
says where the spec's own sentence on this is one off). -/
def Obligations.CompareCarryIsUnsigned : Prop :=
  ∀ s : State, ∃ s', exec .cpB s = .next s' ∧
    (s'.f.getLsbD 7 = true ↔ s.a = s.b) ∧
    (s'.f.getLsbD 7 = true ↔ s.a - s.b = 0x00#8) ∧
    (s'.f.getLsbD 4 = true ↔ s.b.toNat > s.a.toNat) ∧
    ((s'.f.getLsbD 4 = (s.a - s.b).getLsbD 7) ↔
      (s.a.toNat - s.b.toNat < 128 ∧ s.b.toNat - s.a.toNat ≤ 128))

/-- PUSH BC in full (43_stack.md section 1): `b` at one below `sp`, `c` at two below, `sp` down by two,
cost 3/12; no other byte of memory and no other register changes. That the addresses wrap is the
spec's decision D5 (log 3). -/
def Obligations.PushResult : Prop :=
  ∀ s : State, ∃ s', exec .pushBC s = .next s' ∧
    s' = { s with sp := s.sp - 2#16, m := 3, t := 12, mem := s'.mem } ∧
    s'.mem.get (s.sp - 1#16).toNat = s.b ∧
    s'.mem.get (s.sp - 2#16).toNat = s.c ∧
    ∀ x, x ≠ (s.sp - 1#16).toNat → x ≠ (s.sp - 2#16).toNat → s'.mem.get x = s.mem.get x

/-- POP HL in full (43_stack.md section 2): `l` from `sp`, `h` from one above, `sp` up by two, cost
3/12; memory and every other register unchanged. That the addresses wrap is the spec's decision D5
(log 3). -/
def Obligations.PopResult : Prop :=
  ∀ s : State, exec .popHL s = .next
    { s with
      l := s.mem.get s.sp.toNat
      h := s.mem.get (s.sp + 1#16).toNat
      sp := s.sp + 2#16
      m := 3
      t := 12 }

/-- PUSH BC then POP HL: `h` and `l` get `b` and `c`, `sp` is back, `b` and `c` are unchanged and the
two stack bytes still hold them, for every `sp` (R142, which the spec marks as its own derivation;
decision D5, log 3). -/
def Obligations.PushThenPopRestores : Prop :=
  ∀ s : State, ∃ s1 s2, exec .pushBC s = .next s1 ∧ exec .popHL s1 = .next s2 ∧
    s2.h = s.b ∧ s2.l = s.c ∧ s2.sp = s.sp ∧ s2.b = s.b ∧ s2.c = s.c ∧
    s2.mem.get (s.sp - 1#16).toNat = s.b ∧ s2.mem.get (s.sp - 2#16).toNat = s.c

/-- LD A,(nn) with its operand read: the byte at `nn` into `a`, `pc` past the operand, cost 4/16; `f`,
memory and every other register unchanged (44_load_absolute.md; the wrap of `pc` is decision D4, log 3;
that the operand comes decoded is log 10). -/
def Obligations.LoadResult : Prop :=
  ∀ (s : State) (nn : Word), exec (.ldANn nn) s = .next
    { s with a := s.mem.get nn.toNat, pc := s.pc + 2#16, m := 4, t := 16 }

/-- LD A,(nn) as the whole step: the operand is the two bytes after the opcode, high byte first, at
any parity of `pc`, and `pc` ends three further on (decisions D4, D7, D8; logs 3 and 4). -/
def Obligations.LoadStepReadsBigEndianOperand : Prop :=
  ∀ s : State, s.mem.get s.pc.toNat = 0xFA#8 → s.pc ≠ 0xFFFE#16 →
    step s = .next
      { s with
        a := s.mem.get ((s.mem.get (s.pc + 1#16).toNat).toNat * 256 +
          (s.mem.get ((s.pc + 1#16).toNat + 1)).toNat)
        pc := s.pc + 3#16
        m := 4
        t := 16 }

/-- LD A,(nn) entered with `pc` at 0xFFFF raises `BusFault(65536)`: the second operand address is not
wrapped (44_load_absolute.md; decision D8, log 4). So does the step whose opcode is at 0xFFFE, and the
step whose opcode is at 0xFFFF does not fault. -/
def Obligations.LoadOperandOffTheTopFaults : Prop :=
  (∀ s : State, s.pc = 0xFFFF#16 → invoke .ldANn s = .fault (.busFault 65536)) ∧
  (∀ s : State, s.pc = 0xFFFE#16 → s.mem.get 0xFFFE = 0xFA#8 →
    step s = .fault (.busFault 65536)) ∧
  ∀ s : State, s.pc = 0xFFFF#16 → s.mem.get 0xFFFF = 0xFA#8 →
    ∃ s', step s = .next s' ∧ s'.pc = 0x0002#16 ∧
      s'.a = s.mem.get ((s.mem.get 0).toNat * 256 + (s.mem.get 1).toNat)

/-! ### Flags (spec/10_state.md R27, R28, spec/41_alu.md R124) -/

/-- Half-carry with `HC = bit3` is the carry that enters bit 4 of the sum, or the borrow that bit 4 of
the difference pays; with `HC = never` it is never set (decision D6, log 1). -/
def Obligations.HalfCarryIsTheCarryOutOfBitThree : Prop :=
  ∀ x y : Byte,
    halfCarryAdd .bit3 x y = ((x + y) ^^^ x ^^^ y).getLsbD 4 ∧
    halfBorrowSub .bit3 x y = ((x - y) ^^^ x ^^^ y).getLsbD 4 ∧
    halfCarryAdd .never x y = false ∧ halfBorrowSub .never x y = false

/-- Carry after ADD A,E is bit 8 of the sum and after CP B the unsigned borrow, whatever `HC` is, and
the low nibble of every flag byte is zero (10_state.md section 5). -/
def Obligations.FlagBytesHoldOnlyTheFourFlags : Prop :=
  ∀ (hc : HalfCarryRule) (x y : Byte),
    ((addFlags hc x y).toByte.getLsbD 4 = (x.zeroExtend 9 + y.zeroExtend 9).getLsbD 8) ∧
    ((compareFlags hc x y).toByte.getLsbD 4 = BitVec.ult x y) ∧
    (addFlags hc x y).toByte.getLsbD 6 = false ∧ (compareFlags hc x y).toByte.getLsbD 6 = true ∧
    (∀ k < 4, (addFlags hc x y).toByte.getLsbD k = false) ∧
    (∀ k < 4, (compareFlags hc x y).toByte.getLsbD k = false)

/-- No instruction takes a flag as an input: with another `f` a step faults alike, and otherwise
answers the same next state but for `f`, which is the same after the two arithmetic instructions and
the other `f` after the rest (10_state.md section 5). -/
def Obligations.FlagsAreNeverRead : Prop :=
  ∀ (s : State) (f : Byte),
    (∀ r, step s = .fault r ↔ step { s with f := f } = .fault r) ∧
    ∀ s', step s = .next s' → step { s with f := f } = .next
      { s' with
        f := if s.mem.get s.pc.toNat = 0x83#8 ∨ s.mem.get s.pc.toNat = 0xB8#8 then s'.f else f }

/-- No step reads the cycle counters: it answers the same whatever they hold (10_state.md section 6). -/
def Obligations.CountersAreNeverRead : Prop :=
  ∀ (s : State) (m t : Nat), step { s with m := m, t := t } = step s

/-- No step reads `d`, `h` or `l`: with other values it faults alike, and otherwise answers the same
next state but for those registers, which keep their values where the step does not pop them
(10_state.md section 2; the spec marks this consequence as its own derivation). -/
def Obligations.UnreadRegistersDoNotMatter : Prop :=
  ∀ (s : State) (d h l : Byte),
    (∀ r, step s = .fault r ↔ step { s with d := d, h := h, l := l } = .fault r) ∧
    ∀ s', step s = .next s' → step { s with d := d, h := h, l := l } = .next
      { s' with
        d := d
        h := if s.mem.get s.pc.toNat = 0xE1#8 then s'.h else h
        l := if s.mem.get s.pc.toNat = 0xE1#8 then s'.l else l }

/-! ### Frames -/

/-- What each instruction leaves unchanged: every register but those its row of the table in
10_state.md section 2 says it writes, every flag but after the two arithmetic instructions, and every
byte of memory but the two that PUSH BC stores at one and two below `sp`. -/
def Obligations.FrameOfEveryInstruction : Prop :=
  ∀ (i : Instr) (s s' : State), exec i s = .next s' →
    s'.b = s.b ∧ s'.c = s.c ∧ s'.d = s.d ∧ s'.e = s.e ∧
    (i ≠ .addAE → (∀ nn, i ≠ .ldANn nn) → s'.a = s.a) ∧
    (i ≠ .popHL → s'.h = s.h ∧ s'.l = s.l) ∧
    (i ≠ .addAE → i ≠ .cpB → s'.f = s.f) ∧
    (i ≠ .pushBC → i ≠ .popHL → s'.sp = s.sp) ∧
    ((∀ nn, i ≠ .ldANn nn) → s'.pc = s.pc) ∧
    (∀ x, (i = .pushBC → x ≠ (s.sp - 1#16).toNat ∧ x ≠ (s.sp - 2#16).toNat) →
      s'.mem.get x = s.mem.get x)

/-- Over any completed run, of any length and from any state, `b`, `c`, `d` and `e` are unchanged: no
instruction writes them (10_state.md section 2, which the spec marks as its own derivation). -/
def Obligations.RunsNeverWriteBCDE : Prop :=
  ∀ (n : Nat) (s s' : State), Completes n s s' →
    s'.b = s.b ∧ s'.c = s.c ∧ s'.d = s.d ∧ s'.e = s.e

/-- The accesses of a step, for each opcode byte, in order: the fetch alone for NOP, ADD A,E, CP B and
an unmapped byte; two writes below `sp` for PUSH BC; two reads from `sp` for POP HL; two operand reads
and the read at `nn` for LD A,(nn), of which the faulting operand read is the last where the opcode is
at 0xFFFE (20_memory.md section 6, 60_exceptions.md section 2; decisions D2, D4, D5, D7, D8; logs 2, 3
and 4). -/
def Obligations.StepAccessesAreTheTable : Prop :=
  ∀ s : State,
    (s.mem.get s.pc.toNat = 0x00#8 ∨ s.mem.get s.pc.toNat = 0x83#8 ∨
        s.mem.get s.pc.toNat = 0xB8#8 ∨ decodeOpcode (s.mem.get s.pc.toNat) = none →
      stepAccesses s = [⟨.fetch, s.pc.toNat⟩]) ∧
    (s.mem.get s.pc.toNat = 0xC5#8 → stepAccesses s =
      [⟨.fetch, s.pc.toNat⟩, ⟨.write, (s.sp - 1#16).toNat⟩, ⟨.write, (s.sp - 2#16).toNat⟩]) ∧
    (s.mem.get s.pc.toNat = 0xE1#8 → stepAccesses s =
      [⟨.fetch, s.pc.toNat⟩, ⟨.read, s.sp.toNat⟩, ⟨.read, (s.sp + 1#16).toNat⟩]) ∧
    (s.mem.get s.pc.toNat = 0xFA#8 → s.pc ≠ 0xFFFE#16 → stepAccesses s =
      [⟨.fetch, s.pc.toNat⟩, ⟨.read, (s.pc + 1#16).toNat⟩, ⟨.read, (s.pc + 1#16).toNat + 1⟩,
        ⟨.read, (s.mem.get (s.pc + 1#16).toNat).toNat * 256 +
          (s.mem.get ((s.pc + 1#16).toNat + 1)).toNat⟩]) ∧
    (s.mem.get s.pc.toNat = 0xFA#8 → s.pc = 0xFFFE#16 → stepAccesses s =
      [⟨.fetch, 65534⟩, ⟨.read, 65535⟩, ⟨.read, 65536⟩])

/-- A byte that a step changes is at a write access of the step's list of accesses (20_memory.md
section 6); what that list holds is StepAccessesAreTheTable. -/
def Obligations.ChangedBytesAreWriteAccesses : Prop :=
  ∀ (s s' : State) (x : Nat), step s = .next s' → s'.mem.get x ≠ s.mem.get x →
    ⟨.write, x⟩ ∈ stepAccesses s

/-- A step looks at no byte of memory but those of its list of accesses: with other memory that agrees
on them it makes the same accesses, faults alike, and otherwise answers the same registers and, at
every address where the memories agreed, the same byte (20_memory.md section 6); what that list holds
is StepAccessesAreTheTable. -/
def Obligations.StepsReadOnlyTheirAccesses : Prop :=
  ∀ (s : State) (mem : Memory),
    (∀ x ∈ stepAccesses s, x.addr < 65536 → mem.get x.addr = s.mem.get x.addr) →
      stepAccesses { s with mem := mem } = stepAccesses s ∧
      (∀ r, step s = .fault r ↔ step { s with mem := mem } = .fault r) ∧
      ∀ s', step s = .next s' → ∃ s'', step { s with mem := mem } = .next s'' ∧
        s'' = { s' with mem := s''.mem } ∧
        ∀ x, mem.get x = s.mem.get x → s''.mem.get x = s'.mem.get x

/-! ### Memory (spec/20_memory.md) -/

/-- R53: a byte write at an address of the array changes exactly that byte and nothing else, at any
address; at 65536 and above it raises `BusFault`. -/
def Obligations.ByteWriteChangesOneByte : Prop :=
  ∀ (s : State) (addr : Nat) (v : Byte),
    (addr ≥ 65536 → s.writeByte addr v = .error (.busFault addr)) ∧
    (addr < 65536 → ∃ s', s.writeByte addr v = .ok s' ∧ s' = { s with mem := s'.mem } ∧
      s'.mem.get addr = v ∧ ∀ x, x ≠ addr → s'.mem.get x = s.mem.get x)

/-- R161: `BusFault(addr)` is raised by a byte read or write exactly when `addr` is 65536 or more, and
records that address. -/
def Obligations.BusFaultRecordsTheAddress : Prop :=
  ∀ (s : State) (addr : Nat) (v : Byte) (f : Fault),
    (s.readByte addr = .error f ↔ addr ≥ 65536 ∧ f = .busFault addr) ∧
    (s.writeByte addr v = .error f ↔ addr ≥ 65536 ∧ f = .busFault addr)

/-- `WriteWord(w, v)` writes the high byte at `2*w` and the low byte at `2*w + 1` (20_memory.md section
3). That `w` of 32768 or more raises `BusFault(2*w)` is decision D9 (log 4); that no partial write can
happen the spec marks as its own derivation. -/
def Obligations.WordWriteIsHighByteFirst : Prop :=
  ∀ (s : State) (w : Nat) (v : Word),
    (w ≥ 32768 → s.writeWord w v = .error (.busFault (2 * w))) ∧
    (w < 32768 → ∃ s', s.writeWord w v = .ok s' ∧ s' = { s with mem := s'.mem } ∧
      (s'.mem.get (2 * w)).toNat = v.toNat / 256 ∧
      (s'.mem.get (2 * w + 1)).toNat = v.toNat % 256 ∧
      ∀ x, x ≠ 2 * w → x ≠ 2 * w + 1 → s'.mem.get x = s.mem.get x)

/-- 16-bit reads: big-endian at any byte address, the second address not wrapped; `ReadWord(w)` is the
read at `2*w`, and faults with `BusFault(2*w)` for `w` of 32768 or more (20_memory.md section 3;
decisions D7, D8, D9; log 4). -/
def Obligations.WideReadsAreBigEndian : Prop :=
  (∀ (s : State) (addr : Nat), addr < 65535 → ∃ v, s.readPair addr = .ok v ∧
    v.toNat = (s.mem.get addr).toNat * 256 + (s.mem.get (addr + 1)).toNat) ∧
  (∀ (s : State) (addr : Nat), addr ≥ 65535 →
    s.readPair addr = .error (.busFault (if addr = 65535 then 65536 else addr))) ∧
  ∀ (s : State) (w : Nat), (w < 32768 → s.readWord w = s.readPair (2 * w)) ∧
    (w ≥ 32768 → s.readWord w = .error (.busFault (2 * w)))

/-- Round trips: what a byte or word write stored, the same read gives back, at every address in range
(20_memory.md section 6; the range of the word index is decision D9, log 4). -/
def Obligations.WritesReadBack : Prop :=
  (∀ (s s' : State) (addr : Nat) (v : Byte), s.writeByte addr v = .ok s' →
    s'.readByte addr = .ok v) ∧
  (∀ (s s' : State) (w : Nat) (v : Word), s.writeWord w v = .ok s' → s'.readWord w = .ok v) ∧
  ∀ (s : State) (w : Nat) (v : Word), w < 32768 → ∃ s', s.writeWord w v = .ok s'

/-- After PUSH BC the word accessor at an even new `sp` reads `{c, b}`, not `bc`: the stack's order and
the accessor's are independent (20_memory.md section 6, which the spec marks as its own derivation). -/
def Obligations.StackOrderIsNotWordOrder : Prop :=
  ∀ (s : State) (w : Nat), (s.sp - 2#16).toNat = 2 * w →
    ∃ s' v, exec .pushBC s = .next s' ∧ s'.readWord w = .ok v ∧
      v.toNat = s.c.toNat * 256 + s.b.toNat

/-- A byte pushed over the next instruction is the byte the next step fetches (20_memory.md section 8,
which the spec marks as its own derivation). -/
def Obligations.PushedBytesAreFetched : Prop :=
  ∀ s : State, ∃ s', exec .pushBC s = .next s' ∧
    (s.pc = s.sp - 1#16 → s'.instrBytes.head? = some s.b ∧
      (decodeOpcode s.b = none → step s' = .fault (.unimplementedOpcode s.b s.pc))) ∧
    (s.pc = s.sp - 2#16 → s'.instrBytes.head? = some s.c ∧
      (decodeOpcode s.c = none → step s' = .fault (.unimplementedOpcode s.c s.pc)))

/-- The nine regions start where the document says and tile the array: every address of it lies in
exactly one (20_memory.md section 7; the ends are decision D22, log 8). -/
def Obligations.RegionsTileTheArray : Prop :=
  Region.all.map Region.first =
    [0, 16384, 32768, 40960, 49152, 57344, 65024, 65280, 65408] ∧
  ∀ addr : Nat, (addr < 65536 → ∃ r, regionOf addr = some r ∧
      ∀ r' : Region, r'.first ≤ addr ∧ addr ≤ r'.last ↔ r' = r) ∧
    (addr ≥ 65536 → regionOf addr = none)

/-! ### Registers (spec/10_state.md R23) -/

/-- A register pair is the view `high * 256 + low` of its two registers, the first-named one high, and
writing either register changes it (10_state.md section 2). -/
def Obligations.PairsAreViews : Prop :=
  ∀ (s : State) (v : Byte),
    (s.pair .bc).toNat = s.b.toNat * 256 + s.c.toNat ∧
    (s.pair .de).toNat = s.d.toNat * 256 + s.e.toNat ∧
    (s.pair .hl).toNat = s.h.toNat * 256 + s.l.toNat ∧
    ((s.setReg .h v).pair .hl).toNat = v.toNat * 256 + s.l.toNat ∧
    ((s.setReg .l v).pair .hl).toNat = s.h.toNat * 256 + v.toNat

/-! ### Reset and the host (spec/70_reset_and_hazards.md) -/

/-- R51 and R190: construction gives a core with every register zero, a Memory Bus whose 65536 bytes
are all zero, and no fault recorded. -/
def Obligations.ConstructionIsAllZero : Prop :=
  Session.powerOn.stop = none ∧
  (∀ r : Reg8, Session.powerOn.state.reg r = 0x00#8) ∧
  Session.powerOn.state.f = 0x00#8 ∧ Session.powerOn.state.pc = 0x0000#16 ∧
  Session.powerOn.state.sp = 0x0000#16 ∧ Session.powerOn.state.m = 0 ∧
  Session.powerOn.state.t = 0 ∧
  (∀ x, x < 65536 → Session.powerOn.state.readByte x = .ok 0x00#8) ∧
  ∀ x, x ≥ 65536 → Session.powerOn.state.readByte x = .error (.busFault x)

/-- The reset values (10_state.md section 11). After construction everything is zero; after the Reset
operation every register, flag and counter is zero and memory is unchanged. That Reset keeps memory is
decision D14 (log 6). -/
def Obligations.ResetValues : Prop :=
  State.reset =
    { a := 0x00#8, b := 0x00#8, c := 0x00#8, d := 0x00#8, e := 0x00#8, h := 0x00#8, l := 0x00#8,
      f := 0x00#8, pc := 0x0000#16, sp := 0x0000#16, m := 0, t := 0, mem := [] } ∧
  (∀ x, State.reset.mem.get x = 0x00#8) ∧
  ∀ s : State, s.resetRegisters =
    { a := 0x00#8, b := 0x00#8, c := 0x00#8, d := 0x00#8, e := 0x00#8, h := 0x00#8, l := 0x00#8,
      f := 0x00#8, pc := 0x0000#16, sp := 0x0000#16, m := 0, t := 0, mem := s.mem }

/-- The host's Reset takes a running machine to the reset registers beside the same memory, still
running; Reset twice is Reset once; and the registers after it do not depend on those before
(70_reset_and_hazards.md section 1; that memory stays is decision D14, log 6, and that a stopped
machine stays stopped decision D10, log 15). -/
def Obligations.ResetIsIdempotent : Prop :=
  (∀ s : State, (Session.mk s none).move .reset = ⟨s.resetRegisters, none⟩ ∧
    (Session.mk s none).move .reset = ⟨{ State.reset with mem := s.mem }, none⟩) ∧
  (∀ x : Session, (x.move .reset).move .reset = x.move .reset) ∧
  ∀ s s' : State, s'.mem = s.mem → s.resetRegisters = s'.resetRegisters

/-- What the host's moves do to a running machine: a step that answers a next state moves it there,
Reset zeroes its registers, a direct operation that answers a next state moves it there, it goes on
running each time, and a sequence of moves makes them in order (70_reset_and_hazards.md section 3; that
Reset keeps memory is decision D14, log 6; which moves there are is decision D16, log 9). -/
def Obligations.RunningMachineTakesEachMove : Prop :=
  (∀ s s' : State, step s = .next s' → (Session.mk s none).move .step = ⟨s', none⟩) ∧
  (∀ s : State, (Session.mk s none).move .reset = ⟨s.resetRegisters, none⟩) ∧
  (∀ (s s' : State) (o : Operation), invoke o s = .next s' →
    (Session.mk s none).move (.invoke o) = ⟨s', none⟩) ∧
  (∀ x : Session, x.moves [] = x) ∧
  ∀ (x : Session) (move : HostMove) (rest : List HostMove),
    x.moves (move :: rest) = (x.move move).moves rest

/-- What each set-up move writes, and that it writes nothing else (70_reset_and_hazards.md section 3;
the moves are decision D16, log 9; the range of a word index is decision D9, log 4). -/
def Obligations.SetupMovesWriteWhatTheyName : Prop :=
  ∀ s : State,
    (∀ (addr : Nat) (v : Byte), addr < 65536 → ∃ s', s.setup (.writeByte addr v) = .ok s' ∧
      s' = { s with mem := s'.mem } ∧ s'.mem.get addr = v ∧
      ∀ x, x ≠ addr → s'.mem.get x = s.mem.get x) ∧
    (∀ (w : Nat) (v : Word), w < 32768 → ∃ s', s.setup (.writeWord w v) = .ok s' ∧
      s' = { s with mem := s'.mem } ∧
      (s'.mem.get (2 * w)).toNat * 256 + (s'.mem.get (2 * w + 1)).toNat = v.toNat ∧
      ∀ x, x ≠ 2 * w → x ≠ 2 * w + 1 → s'.mem.get x = s.mem.get x) ∧
    (∀ (r : Reg8) (v : Byte), ∃ s', s.setup (.setReg r v) = .ok s' ∧ s'.reg r = v ∧
      (∀ r' : Reg8, r' ≠ r → s'.reg r' = s.reg r') ∧
      s'.f = s.f ∧ s'.pc = s.pc ∧ s'.sp = s.sp ∧ s'.m = s.m ∧ s'.t = s.t ∧ s'.mem = s.mem) ∧
    (∀ z n h c : Bool, s.setup (.setFlags ⟨z, n, h, c⟩) = .ok { s with
      f := (if z then 0x80#8 else 0x00#8) ||| (if n then 0x40#8 else 0x00#8) |||
        (if h then 0x20#8 else 0x00#8) ||| (if c then 0x10#8 else 0x00#8) }) ∧
    (∀ v : Word, s.setup (.setPc v) = .ok { s with pc := v } ∧
      s.setup (.setSp v) = .ok { s with sp := v }) ∧
    ∀ m : Nat, s.setup (.setCounters m) = .ok { s with m := m, t := 4 * m }

/-- Set-up moves are made in order, and a write outside the array ends the set-up with its fault, whatever
moves would follow (60_exceptions.md section 2, 70_reset_and_hazards.md section 3; the range of a word
index is decision D9, log 4). That the fault ends the set-up, with no state to go on from, is the
model's choice (log 18). -/
def Obligations.FaultingSetupHasNoState : Prop :=
  ∀ s : State,
    s.setupAll [] = .ok s ∧
    (∀ (s' : State) (x : HostSetup) (rest : List HostSetup), s.setup x = .ok s' →
      s.setupAll (x :: rest) = s'.setupAll rest) ∧
    (∀ (addr : Nat) (v : Byte) (rest : List HostSetup), addr ≥ 65536 →
      s.setupAll (.writeByte addr v :: rest) = .error (.busFault addr)) ∧
    ∀ (w : Nat) (v : Word) (rest : List HostSetup), w ≥ 32768 →
      s.setupAll (.writeWord w v :: rest) = .error (.busFault (2 * w))

/-- A faulting step leaves the state before it with the fault recorded beside it (60_exceptions.md
section 2; decision D10, logs 5 and 15). -/
def Obligations.FaultingStepWritesNothing : Prop :=
  ∀ (s : State) (f : Fault), step s = .fault f →
    (Session.mk s none).move .step = ⟨s, some (.fault f)⟩

/-- A recorded fault is terminal: no sequence of host moves, steps, resets or direct operations, takes
the machine out of it or changes its state (60_exceptions.md section 2; decision D10, logs 5, 15). -/
def Obligations.RecordedFaultIsPermanent : Prop :=
  ∀ (x : Session) (f : Fault) (moves : List HostMove), x.stop = some (.fault f) →
    x.moves moves = x

/-! ### Invariants -/

/-- The reset state meets the invariant: the low nibble of `f` is zero, `t = 4 * m`, and the memory
list is canonical (log 14). -/
def Obligations.ResetMeetsTheInvariant : Prop := State.reset.Inv

/-- Every step keeps the invariant: the low nibble of `f` is zero, `t = 4 * m`, and the memory list is
canonical (10_state.md sections 5 and 6; the canonical form is the model's, log 14). -/
def Obligations.StepKeepsTheInvariant : Prop :=
  ∀ s s' : State, s.Inv → step s = .next s' → s'.Inv

/-- Whatever the counters held, after any step `t = 4 * m`, and `m` is 1, 3 or 4 (10_state.md
section 6). -/
def Obligations.CountersAgreeAfterEveryStep : Prop :=
  ∀ s s' : State, step s = .next s' → s'.t = 4 * s'.m ∧ (s'.m = 1 ∨ s'.m = 3 ∨ s'.m = 4)

/-- Every sequence of host moves, steps, resets and direct operations, keeps the invariant, whether or
not a fault ends it (70_reset_and_hazards.md sections 3 and 4; logs 9, 14). -/
def Obligations.HostMovesKeepTheInvariant : Prop :=
  ∀ (x : Session) (moves : List HostMove), x.state.Inv → (x.moves moves).state.Inv

/-- The states the host can set up before a run, from construction, are exactly those that meet the
invariant: nothing else can be set up, and everything legal can (70_reset_and_hazards.md section 3;
decision D16, logs 9, 14). -/
def Obligations.SetupReachesExactlyTheLegalStates : Prop :=
  ∀ s : State, s.Inv ↔ ∃ xs : List HostSetup, State.reset.setupAll xs = .ok s

/-- A canonical memory is determined by the bytes it reads as, so two states that look alike to every
accessor are the same state (log 14). -/
def Obligations.StatesAreWhatTheyReadAs : Prop :=
  ∀ s s' : State, s.Inv → s'.Inv → s' = { s with mem := s'.mem } →
    (∀ x, x < 65536 → s.readByte x = s'.readByte x) → s = s'
end

