-- ==== Sys2Proof/Laws/Memory.lean ====
section
/-! SUPPORT. The laws of the memory list: what a read sees after a write, that every operation keeps
the canonical form, and that a canonical list is determined by what it reads as. -/

namespace Sys2Proof.Machine

@[simp] theorem Memory.get_nil (a : Nat) : Memory.get [] a = 0#8 := rfl

@[simp] theorem Memory.get_cons (cell : Host.Cell) (m : Memory) (a : Nat) :
    Memory.get (cell :: m) a = if cell.1 = a then cell.2 else Memory.get m a := rfl

theorem Memory.get_erase (m : Memory) (a x : Nat) :
    (m.erase a).get x = if x = a then 0#8 else m.get x := by
  induction m with
  | nil => simp [Memory.erase]
  | cons cell rest ih =>
    unfold Memory.erase at ih ⊢
    rw [List.filter_cons]
    by_cases hc : cell.1 = a
    · rcases eq_or_ne x a with h | h <;> simp_all [eq_comm]
    · by_cases hx : cell.1 = x <;> simp_all

theorem Memory.get_insert (m : Memory) (a x : Nat) (v : Byte) (ha : ∀ cell ∈ m, cell.1 ≠ a) :
    (m.insert a v).get x = if x = a then v else m.get x := by
  induction m with
  | nil => simp [Memory.insert, eq_comm]
  | cons cell rest ih =>
    have hc : cell.1 ≠ a := ha cell (by simp)
    have ih := ih fun y hy => ha y (by simp [hy])
    unfold Memory.insert
    split
    · simp [eq_comm]
    · by_cases hx : cell.1 = x
      · subst hx; simp [hc]
      · simp [hx, ih]

theorem Memory.ne_of_mem_erase {m : Memory} {a : Nat} {cell : Host.Cell} (h : cell ∈ m.erase a) :
    cell.1 ≠ a := by
  simpa using (List.mem_filter.mp h).2

/-- A read after a write (spec/20_memory.md R62): the written address gives the byte written, every
other address what it gave before. It holds of every list, canonical or not. -/
theorem Memory.get_set (m : Memory) (a x : Nat) (v : Byte) :
    (m.set a v).get x = if x = a then v else m.get x := by
  unfold Memory.set
  split
  · rename_i h
    subst h
    rw [Memory.get_erase]
    rfl
  · rw [Memory.get_insert _ _ _ _ fun _ => Memory.ne_of_mem_erase, Memory.get_erase]
    split <;> rfl

/-! ### The canonical form -/

theorem Memory.wf_cons (cell : Host.Cell) (m : Memory) :
    Memory.wf (cell :: m) = true ↔
      (cell.1 < capacity ∧ cell.2 ≠ 0#8) ∧ (∀ next ∈ m, cell.1 < next.1) ∧ m.wf = true := by
  simp only [Memory.wf, Bool.and_eq_true, decide_eq_true_eq, List.all_eq_true, and_assoc]
  rfl

theorem Memory.wf_erase {m : Memory} (a : Nat) (hm : m.wf = true) : (m.erase a).wf = true := by
  induction m with
  | nil => rfl
  | cons cell rest ih =>
    obtain ⟨hc, hlt, hr⟩ := (Memory.wf_cons _ _).mp hm
    unfold Memory.erase at ih ⊢
    rw [List.filter_cons]
    split
    · exact (Memory.wf_cons _ _).mpr ⟨hc, fun y hy => hlt y (List.mem_filter.mp hy).1, ih hr⟩
    · exact ih hr

theorem Memory.mem_insert {m : Memory} {a : Nat} {v : Byte} {y : Host.Cell}
    (h : y ∈ m.insert a v) : y = (a, v) ∨ y ∈ m := by
  induction m with
  | nil => simpa [Memory.insert] using h
  | cons cell rest ih =>
    unfold Memory.insert at h
    split at h
    · simpa using h
    · rcases List.mem_cons.mp h with h | h
      · exact .inr (by simp [h])
      · rcases ih h with h | h
        · exact .inl h
        · exact .inr (by simp [h])

theorem Memory.wf_insert {m : Memory} {a : Nat} {v : Byte} (hm : m.wf = true)
    (ha : a < capacity) (hv : v ≠ 0#8) (hne : ∀ cell ∈ m, cell.1 ≠ a) :
    (m.insert a v).wf = true := by
  induction m with
  | nil => exact (Memory.wf_cons _ _).mpr ⟨⟨ha, hv⟩, by simp, rfl⟩
  | cons cell rest ih =>
    obtain ⟨hc, hlt, hr⟩ := (Memory.wf_cons _ _).mp hm
    have hca : cell.1 ≠ a := hne cell (by simp)
    unfold Memory.insert
    split
    · rename_i h
      refine (Memory.wf_cons _ _).mpr ⟨⟨ha, hv⟩, fun y hy => ?_, hm⟩
      rcases List.mem_cons.mp hy with rfl | hy
      · exact h
      · exact lt_trans h (hlt y hy)
    · refine (Memory.wf_cons _ _).mpr
        ⟨hc, fun y hy => ?_, ih hr fun y hy => hne y (by simp [hy])⟩
      rcases Memory.mem_insert hy with rfl | hy
      · simp only; omega
      · exact hlt y hy

/-- A write to an address of the array keeps the canonical form. -/
theorem Memory.wf_set {m : Memory} {a : Nat} (v : Byte) (hm : m.wf = true) (ha : a < capacity) :
    (m.set a v).wf = true := by
  unfold Memory.set
  split
  · exact Memory.wf_erase a hm
  · rename_i hv
    exact Memory.wf_insert (Memory.wf_erase a hm) ha hv fun _ => Memory.ne_of_mem_erase

theorem Memory.get_eq_zero_of_lt {m : Memory} {a : Nat} (h : ∀ cell ∈ m, a < cell.1) :
    m.get a = 0#8 := by
  induction m with
  | nil => rfl
  | cons cell rest ih =>
    have hc : a < cell.1 := h cell (by simp)
    rw [Memory.get_cons, if_neg (by omega), ih fun y hy => h y (by simp [hy])]

/-- Two canonical lists that read alike at every address are the same list. -/
theorem Memory.eq_of_get_eq {m m' : Memory} (hm : m.wf = true) (hm' : m'.wf = true)
    (h : ∀ a, m.get a = m'.get a) : m = m' := by
  induction m generalizing m' with
  | nil =>
    cases m' with
    | nil => rfl
    | cons y ys =>
      have hy := ((Memory.wf_cons _ _).mp hm').1.2
      exact absurd (by simpa using (h y.1).symm) hy
  | cons x xs ih =>
    obtain ⟨hx, hxlt, hxs⟩ := (Memory.wf_cons _ _).mp hm
    cases m' with
    | nil => exact absurd (by simpa using h x.1) hx.2
    | cons y ys =>
      obtain ⟨hy, hylt, hys⟩ := (Memory.wf_cons _ _).mp hm'
      have low {p : Host.Cell} {ps : Memory} {q : Host.Cell} (hqp : q.1 < p.1)
          (hp : ∀ z ∈ ps, p.1 < z.1) : Memory.get (p :: ps) q.1 = 0#8 := by
        apply Memory.get_eq_zero_of_lt
        intro z hz
        rcases List.mem_cons.mp hz with rfl | hz
        · exact hqp
        · exact lt_trans hqp (hp z hz)
      have haddr : x.1 = y.1 := by
        rcases lt_trichotomy x.1 y.1 with hlt | heq | hlt
        · have := h x.1
          rw [low hlt hylt, Memory.get_cons, if_pos rfl] at this
          exact absurd this hx.2
        · exact heq
        · have := h y.1
          rw [low hlt hxlt, Memory.get_cons, if_pos rfl] at this
          exact absurd this.symm hy.2
      have hval : x.2 = y.2 := by simpa [haddr] using h x.1
      have hrest : xs = ys := by
        refine ih hxs hys fun a => ?_
        by_cases ha : a = x.1
        · subst ha
          rw [Memory.get_eq_zero_of_lt hxlt,
            Memory.get_eq_zero_of_lt (haddr ▸ hylt)]
        · have := h a
          rwa [Memory.get_cons, Memory.get_cons, if_neg (Ne.symm ha),
            if_neg (haddr ▸ Ne.symm ha)] at this
      rw [Prod.ext haddr hval, hrest]

/-- Placing bytes at addresses keeps the canonical form: addresses outside the array are skipped. -/
theorem Memory.wf_place {m : Memory} (addresses : List Nat) (bytes : List Byte)
    (hm : m.wf = true) : (m.place addresses bytes).wf = true := by
  unfold Memory.place
  induction addresses.zip bytes generalizing m with
  | nil => exact hm
  | cons cell rest ih =>
    rw [List.foldl_cons]
    split
    · rename_i h
      exact ih (Memory.wf_set _ hm h)
    · exact ih hm

end Sys2Proof.Machine
end

