-- ==== Sys2Proof/Laws/State.lean ====
section
/-! SUPPORT. One lemma for each field and each update of the state, so that no proof unfolds a
record update. -/

namespace Sys2Proof.Machine

variable (s : State)

/-! ### setPc -/

@[simp] theorem State.setPc_a (v : Word) : (s.setPc v).a = s.a := rfl
@[simp] theorem State.setPc_b (v : Word) : (s.setPc v).b = s.b := rfl
@[simp] theorem State.setPc_c (v : Word) : (s.setPc v).c = s.c := rfl
@[simp] theorem State.setPc_d (v : Word) : (s.setPc v).d = s.d := rfl
@[simp] theorem State.setPc_e (v : Word) : (s.setPc v).e = s.e := rfl
@[simp] theorem State.setPc_h (v : Word) : (s.setPc v).h = s.h := rfl
@[simp] theorem State.setPc_l (v : Word) : (s.setPc v).l = s.l := rfl
@[simp] theorem State.setPc_f (v : Word) : (s.setPc v).f = s.f := rfl
@[simp] theorem State.setPc_pc (v : Word) : (s.setPc v).pc = v := rfl
@[simp] theorem State.setPc_sp (v : Word) : (s.setPc v).sp = s.sp := rfl
@[simp] theorem State.setPc_m (v : Word) : (s.setPc v).m = s.m := rfl
@[simp] theorem State.setPc_t (v : Word) : (s.setPc v).t = s.t := rfl
@[simp] theorem State.setPc_mem (v : Word) : (s.setPc v).mem = s.mem := rfl

/-! ### setSp -/

@[simp] theorem State.setSp_a (v : Word) : (s.setSp v).a = s.a := rfl
@[simp] theorem State.setSp_b (v : Word) : (s.setSp v).b = s.b := rfl
@[simp] theorem State.setSp_c (v : Word) : (s.setSp v).c = s.c := rfl
@[simp] theorem State.setSp_d (v : Word) : (s.setSp v).d = s.d := rfl
@[simp] theorem State.setSp_e (v : Word) : (s.setSp v).e = s.e := rfl
@[simp] theorem State.setSp_h (v : Word) : (s.setSp v).h = s.h := rfl
@[simp] theorem State.setSp_l (v : Word) : (s.setSp v).l = s.l := rfl
@[simp] theorem State.setSp_f (v : Word) : (s.setSp v).f = s.f := rfl
@[simp] theorem State.setSp_pc (v : Word) : (s.setSp v).pc = s.pc := rfl
@[simp] theorem State.setSp_sp (v : Word) : (s.setSp v).sp = v := rfl
@[simp] theorem State.setSp_m (v : Word) : (s.setSp v).m = s.m := rfl
@[simp] theorem State.setSp_t (v : Word) : (s.setSp v).t = s.t := rfl
@[simp] theorem State.setSp_mem (v : Word) : (s.setSp v).mem = s.mem := rfl

/-! ### setF -/

@[simp] theorem State.setF_a (v : Byte) : (s.setF v).a = s.a := rfl
@[simp] theorem State.setF_b (v : Byte) : (s.setF v).b = s.b := rfl
@[simp] theorem State.setF_c (v : Byte) : (s.setF v).c = s.c := rfl
@[simp] theorem State.setF_d (v : Byte) : (s.setF v).d = s.d := rfl
@[simp] theorem State.setF_e (v : Byte) : (s.setF v).e = s.e := rfl
@[simp] theorem State.setF_h (v : Byte) : (s.setF v).h = s.h := rfl
@[simp] theorem State.setF_l (v : Byte) : (s.setF v).l = s.l := rfl
@[simp] theorem State.setF_f (v : Byte) : (s.setF v).f = v := rfl
@[simp] theorem State.setF_pc (v : Byte) : (s.setF v).pc = s.pc := rfl
@[simp] theorem State.setF_sp (v : Byte) : (s.setF v).sp = s.sp := rfl
@[simp] theorem State.setF_m (v : Byte) : (s.setF v).m = s.m := rfl
@[simp] theorem State.setF_t (v : Byte) : (s.setF v).t = s.t := rfl
@[simp] theorem State.setF_mem (v : Byte) : (s.setF v).mem = s.mem := rfl

/-! ### advance -/

@[simp] theorem State.advance_a (k : Word) : (s.advance k).a = s.a := rfl
@[simp] theorem State.advance_b (k : Word) : (s.advance k).b = s.b := rfl
@[simp] theorem State.advance_c (k : Word) : (s.advance k).c = s.c := rfl
@[simp] theorem State.advance_d (k : Word) : (s.advance k).d = s.d := rfl
@[simp] theorem State.advance_e (k : Word) : (s.advance k).e = s.e := rfl
@[simp] theorem State.advance_h (k : Word) : (s.advance k).h = s.h := rfl
@[simp] theorem State.advance_l (k : Word) : (s.advance k).l = s.l := rfl
@[simp] theorem State.advance_f (k : Word) : (s.advance k).f = s.f := rfl
@[simp] theorem State.advance_pc (k : Word) : (s.advance k).pc = s.pc + k := rfl
@[simp] theorem State.advance_sp (k : Word) : (s.advance k).sp = s.sp := rfl
@[simp] theorem State.advance_m (k : Word) : (s.advance k).m = s.m := rfl
@[simp] theorem State.advance_t (k : Word) : (s.advance k).t = s.t := rfl
@[simp] theorem State.advance_mem (k : Word) : (s.advance k).mem = s.mem := rfl

/-! ### charge -/

@[simp] theorem State.charge_a (k : Nat) : (s.charge k).a = s.a := rfl
@[simp] theorem State.charge_b (k : Nat) : (s.charge k).b = s.b := rfl
@[simp] theorem State.charge_c (k : Nat) : (s.charge k).c = s.c := rfl
@[simp] theorem State.charge_d (k : Nat) : (s.charge k).d = s.d := rfl
@[simp] theorem State.charge_e (k : Nat) : (s.charge k).e = s.e := rfl
@[simp] theorem State.charge_h (k : Nat) : (s.charge k).h = s.h := rfl
@[simp] theorem State.charge_l (k : Nat) : (s.charge k).l = s.l := rfl
@[simp] theorem State.charge_f (k : Nat) : (s.charge k).f = s.f := rfl
@[simp] theorem State.charge_pc (k : Nat) : (s.charge k).pc = s.pc := rfl
@[simp] theorem State.charge_sp (k : Nat) : (s.charge k).sp = s.sp := rfl
@[simp] theorem State.charge_m (k : Nat) : (s.charge k).m = k := rfl
@[simp] theorem State.charge_t (k : Nat) : (s.charge k).t = 4 * k := rfl
@[simp] theorem State.charge_mem (k : Nat) : (s.charge k).mem = s.mem := rfl

/-! ### resetRegisters -/

@[simp] theorem State.resetRegisters_a : (s.resetRegisters).a = 0#8 := rfl
@[simp] theorem State.resetRegisters_b : (s.resetRegisters).b = 0#8 := rfl
@[simp] theorem State.resetRegisters_c : (s.resetRegisters).c = 0#8 := rfl
@[simp] theorem State.resetRegisters_d : (s.resetRegisters).d = 0#8 := rfl
@[simp] theorem State.resetRegisters_e : (s.resetRegisters).e = 0#8 := rfl
@[simp] theorem State.resetRegisters_h : (s.resetRegisters).h = 0#8 := rfl
@[simp] theorem State.resetRegisters_l : (s.resetRegisters).l = 0#8 := rfl
@[simp] theorem State.resetRegisters_f : (s.resetRegisters).f = 0#8 := rfl
@[simp] theorem State.resetRegisters_pc : (s.resetRegisters).pc = 0#16 := rfl
@[simp] theorem State.resetRegisters_sp : (s.resetRegisters).sp = 0#16 := rfl
@[simp] theorem State.resetRegisters_m : (s.resetRegisters).m = 0 := rfl
@[simp] theorem State.resetRegisters_t : (s.resetRegisters).t = 0 := rfl
@[simp] theorem State.resetRegisters_mem : (s.resetRegisters).mem = s.mem := rfl

/-! ### setReg -/

@[simp] theorem State.setReg_a (r : Reg8) (v : Byte) :
    (s.setReg r v).a = if r = .a then v else s.a := by cases r <;> rfl
@[simp] theorem State.setReg_b (r : Reg8) (v : Byte) :
    (s.setReg r v).b = if r = .b then v else s.b := by cases r <;> rfl
@[simp] theorem State.setReg_c (r : Reg8) (v : Byte) :
    (s.setReg r v).c = if r = .c then v else s.c := by cases r <;> rfl
@[simp] theorem State.setReg_d (r : Reg8) (v : Byte) :
    (s.setReg r v).d = if r = .d then v else s.d := by cases r <;> rfl
@[simp] theorem State.setReg_e (r : Reg8) (v : Byte) :
    (s.setReg r v).e = if r = .e then v else s.e := by cases r <;> rfl
@[simp] theorem State.setReg_h (r : Reg8) (v : Byte) :
    (s.setReg r v).h = if r = .h then v else s.h := by cases r <;> rfl
@[simp] theorem State.setReg_l (r : Reg8) (v : Byte) :
    (s.setReg r v).l = if r = .l then v else s.l := by cases r <;> rfl
@[simp] theorem State.setReg_f (r : Reg8) (v : Byte) : (s.setReg r v).f = s.f := by
  cases r <;> rfl
@[simp] theorem State.setReg_pc (r : Reg8) (v : Byte) : (s.setReg r v).pc = s.pc := by
  cases r <;> rfl
@[simp] theorem State.setReg_sp (r : Reg8) (v : Byte) : (s.setReg r v).sp = s.sp := by
  cases r <;> rfl
@[simp] theorem State.setReg_m (r : Reg8) (v : Byte) : (s.setReg r v).m = s.m := by
  cases r <;> rfl
@[simp] theorem State.setReg_t (r : Reg8) (v : Byte) : (s.setReg r v).t = s.t := by
  cases r <;> rfl
@[simp] theorem State.setReg_mem (r : Reg8) (v : Byte) : (s.setReg r v).mem = s.mem := by
  cases r <;> rfl

/-- Reading a general register after writing one. -/
@[simp] theorem State.reg_setReg (r r' : Reg8) (v : Byte) :
    (s.setReg r v).reg r' = if r = r' then v else s.reg r' := by
  cases r <;> cases r' <;> rfl

@[simp] theorem State.reg_setPc (v : Word) (r : Reg8) : (s.setPc v).reg r = s.reg r := by
  cases r <;> rfl

@[simp] theorem State.reg_setSp (v : Word) (r : Reg8) : (s.setSp v).reg r = s.reg r := by
  cases r <;> rfl

@[simp] theorem State.reg_setF (v : Byte) (r : Reg8) : (s.setF v).reg r = s.reg r := by
  cases r <;> rfl

@[simp] theorem State.reg_charge (k : Nat) (r : Reg8) : (s.charge k).reg r = s.reg r := by
  cases r <;> rfl

@[simp] theorem State.reg_advance (k : Word) (r : Reg8) : (s.advance k).reg r = s.reg r := by
  cases r <;> rfl

/-! ### Keeping an outcome -/

@[simp] theorem Session.record_next (x : Session) (s' : State) :
    x.record (.next s') = ⟨s', x.stop⟩ := rfl
@[simp] theorem Session.record_fault (x : Session) (f : Fault) :
    x.record (.fault f) = ⟨x.state, some (.fault f)⟩ := rfl
@[simp] theorem Session.record_refused (x : Session) (r : Refusal) :
    x.record (.refused r) = ⟨x.state, some (.refused r)⟩ := rfl

end Sys2Proof.Machine
end

