-- ==== Sys2Proof/Laws/Ops.lean ====
section
/-! SUPPORT. One lemma for each shared operation that says everything it can do, for proofs to cite
instead of unfolding it. -/

namespace Sys2Proof.Machine

/-! ### Taking a fault -/

@[simp] theorem andThen_ok {α : Type} (x : α) (next : α → Result) :
    andThen (.ok x) next = next x := rfl

@[simp] theorem andThen_error {α : Type} (f : Fault) (next : α → Result) :
    andThen (.error f : Except Fault α) next = .fault f := rfl

/-- An access followed by more answers a next state only through the access's value. -/
theorem andThen_eq_next {α : Type} {access : Except Fault α} {next : α → Result} {s' : State}
    (h : andThen access next = .next s') : ∃ x, access = .ok x ∧ next x = .next s' := by
  cases access with
  | error f => cases h
  | ok x => exact ⟨x, rfl, h⟩

/-- An access followed by more answers a fault either from the access or from what follows. -/
theorem andThen_eq_fault {α : Type} {access : Except Fault α} {next : α → Result} {f : Fault}
    (h : andThen access next = .fault f) :
    access = .error f ∨ ∃ x, access = .ok x ∧ next x = .fault f := by
  cases access with
  | error g => exact .inl (by cases h; rfl)
  | ok x => exact .inr ⟨x, rfl, h⟩

/-! ### Accessors -/

/-- Every 16-bit address is an address of the array. -/
theorem toNat_lt_capacity (v : Word) : v.toNat < capacity := v.isLt

theorem State.readByte_of_lt (s : State) {addr : Nat} (h : addr < capacity) :
    s.readByte addr = .ok (s.mem.get addr) := if_pos h

theorem State.readByte_of_ge (s : State) {addr : Nat} (h : capacity ≤ addr) :
    s.readByte addr = .error (.busFault addr) := if_neg (by omega)

/-- A read at a 16-bit address cannot fault. -/
@[simp] theorem State.readByte_word (s : State) (v : Word) :
    s.readByte v.toNat = .ok (s.mem.get v.toNat) := s.readByte_of_lt v.isLt

theorem State.writeByte_of_lt (s : State) {addr : Nat} (v : Byte) (h : addr < capacity) :
    s.writeByte addr v = .ok { s with mem := s.mem.set addr v } := if_pos h

theorem State.writeByte_of_ge (s : State) {addr : Nat} (v : Byte) (h : capacity ≤ addr) :
    s.writeByte addr v = .error (.busFault addr) := if_neg (by omega)

/-- A write at a 16-bit address cannot fault. -/
@[simp] theorem State.writeByte_word (s : State) (x : Word) (v : Byte) :
    s.writeByte x.toNat v = .ok { s with mem := s.mem.set x.toNat v } := s.writeByte_of_lt v x.isLt

/-- Everything a 16-bit read can do: it faults at the first address outside the array. -/
theorem State.readPair_eq (s : State) (addr : Nat) :
    s.readPair addr =
      if addr + 1 < capacity then .ok (beWord (s.mem.get addr) (s.mem.get (addr + 1)))
      else if addr < capacity then .error (.busFault (addr + 1))
      else .error (.busFault addr) := by
  unfold State.readPair State.readByte
  by_cases h : addr < capacity
  · by_cases h1 : addr + 1 < capacity <;> simp [h, h1]
  · simp [h, show ¬ addr + 1 < capacity by omega]

/-- Everything a 16-bit write can do. -/
theorem State.writePair_eq (s : State) (addr : Nat) (v : Word) :
    s.writePair addr v =
      if addr + 1 < capacity then
        .ok { s with mem := (s.mem.set addr (highByte v)).set (addr + 1) (lowByte v) }
      else if addr < capacity then .error (.busFault (addr + 1))
      else .error (.busFault addr) := by
  unfold State.writePair State.writeByte
  by_cases h : addr < capacity
  · by_cases h1 : addr + 1 < capacity <;> simp [h, h1]
  · simp [h, show ¬ addr + 1 < capacity by omega]

/-! ### The stack -/

/-- A push of one byte cannot fault. -/
@[simp] theorem State.pushByte_eq (s : State) (v : Byte) :
    s.pushByte v =
      .ok { s with mem := s.mem.set (s.sp - 1#16).toNat v, sp := s.sp - 1#16 } := by
  rw [State.pushByte, State.writeByte_word]
  rfl

/-- A pop of one byte cannot fault. -/
@[simp] theorem State.popByte_eq (s : State) :
    s.popByte = .ok (s.mem.get s.sp.toNat, { s with sp := s.sp + 1#16 }) := by
  rw [State.popByte, State.readByte_word]
  rfl

theorem sub_one_sub_one (v : Word) : v - 1#16 - 1#16 = v - 2#16 := by bv_omega

theorem add_one_add_one (v : Word) : v + 1#16 + 1#16 = v + 2#16 := by bv_omega

/-- Pushing a pair cannot fault: the high-order register goes to the higher address. -/
theorem State.pushPair_eq (s : State) (p : Pair) :
    s.pushPair p =
      .ok { s with
        mem := (s.mem.set (s.sp - 1#16).toNat (s.reg p.high)).set (s.sp - 2#16).toNat (s.reg p.low)
        sp := s.sp - 2#16 } := by
  simp only [State.pushPair, State.pushByte_eq, sub_one_sub_one]

/-- Popping a pair cannot fault: the low-order register comes from the lower address. -/
theorem State.popPair_eq (s : State) (p : Pair) :
    s.popPair p =
      .ok (((s.setReg p.low (s.mem.get s.sp.toNat)).setReg p.high
        (s.mem.get (s.sp + 1#16).toNat)).setSp (s.sp + 2#16)) := by
  cases p <;>
    simp only [State.popPair, State.popByte_eq, State.setReg, State.setSp, Pair.low, Pair.high,
      add_one_add_one]

/-! ### The inline operand and the instruction cycle -/

/-- Only `LD A,(nn)` has an inline operand, and only it can fail to have one. -/
theorem State.readOperand_ok {s : State} {o : Operation} {i : Instr}
    (h : s.readOperand o = .ok i) : i.operation = o := by
  cases o <;> simp only [State.readOperand] at h
  case ldANn =>
    split at h
    · cases h
    · cases h; rfl
  all_goals cases h; rfl

/-- Reading an operand fails only for `LD A,(nn)` with `pc` at 0xFFFF. -/
theorem State.readOperand_error {s : State} {o : Operation} {f : Fault}
    (h : s.readOperand o = .error f) :
    o = .ldANn ∧ s.pc = 0xFFFF#16 ∧ f = .busFault 65536 := by
  cases o <;> simp only [State.readOperand, reduceCtorEq] at h
  rw [State.readPair_eq] at h
  have hlt := s.pc.isLt
  by_cases h1 : s.pc.toNat + 1 < capacity
  · simp [h1] at h
  · have hpc : s.pc.toNat = 65535 := by simp only [capacity] at h1; omega
    refine ⟨rfl, BitVec.eq_of_toNat_eq (by simpa using hpc), ?_⟩
    simp [hpc] at h
    exact h.symm

/-- The opcode fetch cannot fault (spec/40_instruction_cycle.md R101): what a step can do. -/
theorem cycle_eq (s : State) :
    cycle s =
      match decodeOpcode (s.mem.get s.pc.toNat) with
      | none => .fault (.unimplementedOpcode (s.mem.get s.pc.toNat) s.pc)
      | some o => invoke o (s.advance 1#16) := by
  unfold cycle
  rw [State.readByte_word]
  rfl

/-- The accesses of a step whose opcode byte selects an operation. -/
theorem stepAccesses_of_some {s : State} {o : Operation}
    (h : decodeOpcode (s.mem.get s.pc.toNat) = some o) :
    stepAccesses s = ⟨.fetch, s.pc.toNat⟩ :: operationAccesses o (s.advance 1#16) := by
  rw [stepAccesses, h]

/-- The accesses of a step whose opcode byte is unmapped. -/
theorem stepAccesses_of_none {s : State} (h : decodeOpcode (s.mem.get s.pc.toNat) = none) :
    stepAccesses s = [⟨.fetch, s.pc.toNat⟩] := by
  rw [stepAccesses, h]

/-- What a step can do, its operand fetch included: an unmapped opcode, a bus fault on the operand
of `LD A,(nn)`, or the decoded instruction. -/
theorem step_cases (s : State) :
    (decodeOpcode (s.mem.get s.pc.toNat) = none ∧
      step s = .fault (.unimplementedOpcode (s.mem.get s.pc.toNat) s.pc)) ∨
    (decodeOpcode (s.mem.get s.pc.toNat) = some .ldANn ∧ s.pc = 0xFFFE#16 ∧
      step s = .fault (.busFault 65536)) ∨
    ∃ i, decodeOpcode (s.mem.get s.pc.toNat) = some i.operation ∧
      (s.advance 1#16).readOperand i.operation = .ok i ∧ step s = exec i (s.advance 1#16) := by
  unfold step
  rw [cycle_eq]
  cases ho : decodeOpcode (s.mem.get s.pc.toNat) with
  | none => exact .inl ⟨rfl, rfl⟩
  | some o =>
    cases hr : (s.advance 1#16).readOperand o with
    | error f =>
      obtain ⟨rfl, hpc, rfl⟩ := State.readOperand_error hr
      refine .inr (.inl ⟨rfl, ?_, by simp only [invoke, hr, andThen_error]⟩)
      simp only [State.advance_pc] at hpc
      calc s.pc = s.pc + 1#16 - 1#16 := by simp
        _ = 0xFFFE#16 := by rw [hpc]; rfl
    | ok i =>
      obtain rfl := State.readOperand_ok hr
      exact .inr (.inr ⟨i, rfl, hr, by simp only [invoke, hr, andThen_ok]⟩)

end Sys2Proof.Machine
end

