-- ==== Sys2Proof/Laws/Exec.lean ====
section
/-! SUPPORT. What each meaning answers, in one equation on the state it is entered with; proofs about
an instruction cite these instead of unfolding the meaning. -/

namespace Sys2Proof.Machine

/-- `exec` never refuses and never faults: every instruction answers a next state. -/
theorem exec_eq_next (i : Instr) (s : State) : ∃ s', exec i s = .next s' := by
  cases i with
  | nop => exact ⟨_, rfl⟩
  | addAE => exact ⟨_, rfl⟩
  | cpB => exact ⟨_, rfl⟩
  | pushBC => exact ⟨_, by rw [exec, execPushBC, State.pushPair_eq, andThen_ok]⟩
  | popHL => exact ⟨_, by rw [exec, execPopHL, State.popPair_eq, andThen_ok]⟩
  | ldANn nn => exact ⟨_, by rw [exec, execLdANn, State.readByte_word, andThen_ok]⟩

theorem completes_zero (s s' : State) : Completes 0 s s' ↔ s = s' :=
  ⟨fun h => Host.Outcome.next.inj h, fun h => congrArg _ h⟩

/-- A run of one step more is a step that answers a next state, and a run from there. -/
theorem completes_succ (n : Nat) (s s' : State) :
    Completes (n + 1) s s' ↔ ∃ s1, step s = .next s1 ∧ Completes n s1 s' := by
  unfold Completes
  rw [run]
  cases step s <;> simp

/-- The low nibble of every byte of flags is zero (spec/10_state.md R27). -/
theorem Flags.lowNibble_toByte (x : Flags) : lowNibble x.toByte = 0 := by
  obtain ⟨z, n, h, c⟩ := x
  cases z <;> cases n <;> cases h <;> cases c <;> rfl

/-- Reading the flags of a byte made of flags gives them back. -/
theorem Flags.ofByte_toByte (x : Flags) : Flags.ofByte x.toByte = x := by
  obtain ⟨z, n, h, c⟩ := x
  cases z <;> cases n <;> cases h <;> cases c <;> rfl

end Sys2Proof.Machine
end

