-- ==== Sys2Proof/Laws/PerInstr.lean ====
section
/-! SUPPORT. A fact of every instruction as syntax, one lemma for each constructor. -/

namespace Sys2Proof.Laws.Encoding

/-- The instruction is well-formed, its encoding has its length (spec/30_encoding.md R80), and the
first byte is the opcode of its operation, which the opcode map takes back to it (R84). -/
def Statement (i : Instr) : Prop :=
  i.wellFormed = true ∧ (encode i).length = i.length ∧
    (encode i).head? = some i.operation.opcode ∧
    decodeOpcode i.operation.opcode = some i.operation

theorem nop : Statement .nop := ⟨rfl, rfl, rfl, rfl⟩

theorem addAE : Statement .addAE := ⟨rfl, rfl, rfl, rfl⟩

theorem cpB : Statement .cpB := ⟨rfl, rfl, rfl, rfl⟩

theorem pushBC : Statement .pushBC := ⟨rfl, rfl, rfl, rfl⟩

theorem popHL : Statement .popHL := ⟨rfl, rfl, rfl, rfl⟩

theorem ldANn (nn : Word) : Statement (.ldANn nn) :=
  ⟨decide_eq_true nn.isLt, rfl, rfl, rfl⟩

end Sys2Proof.Laws.Encoding
end

