-- ==== Sys2Proof/Tests/Slice0.lean ====
section
/-! SUPPORT. Tests of the model on fixed values from spec/95_test_vectors.md (the vector's name stands
with each test), smoke tests of the well-formedness check and the decoder, and a witness for every
statement of Certificates/Slice0/Obligations.lean that has hypotheses. -/

namespace Sys2Proof.Tests

open Sys2Proof.Machine

/-! ### Builders -/

/-- `s` with `bytes` stored from `start` on. -/
def put (s : State) (start : Nat) (bytes : List Byte) : State :=
  { s with mem := s.mem.place (List.range' start bytes.length) bytes }

/-- The next state, if there is one. -/
def after : Result → Option State
  | .next s => some s
  | .fault _ => none
  | .refused _ => none

/-- The fault, if there is one. -/
def faultOf : Result → Option Fault
  | .next _ => none
  | .fault f => some f
  | .refused _ => none

/-- The construction state. -/
abbrev fresh : State := State.reset

/-! ### Well-formedness: the ill-placed instruction is refused, its neighbours are not -/

theorem test_wellPlaced_refuses_ld_at_fffe : (Instr.ldANn 0x0010#16).wellPlaced 0xFFFE#16 = false := by
  decide

theorem test_wellPlaced_accepts_ld_beside_fffe :
    (Instr.ldANn 0x0010#16).wellPlaced 0xFFFD#16 = true ∧
    (Instr.ldANn 0x0010#16).wellPlaced 0xFFFF#16 = true ∧
    Instr.pushBC.wellPlaced 0xFFFE#16 = true := by decide

/-- No term of `Instr` is ill-formed: the type bounds the operand. -/
theorem test_wellFormed_at_the_bounds :
    (Instr.ldANn 0x0000#16).wellFormed = true ∧ (Instr.ldANn 0xFFFF#16).wellFormed = true := by decide

/-- A byte string that is no instruction is refused by name. -/
theorem test_decode_refuses_ill_formed_bytes :
    decode [] = .error .truncated ∧
    decode [0xFA#8] = .error .truncated ∧
    decode [0xFA#8, 0x12#8] = .error .truncated ∧
    decode [0xCB#8, 0x00#8] = .error (.unmapped 0xCB#8) := ⟨rfl, rfl, rfl, rfl⟩

/-! ### Decoding: words written out bit by bit from R81 and R84 -/

/-- X1. -/
theorem test_decode_nop : decodeOpcode 0b00000000#8 = some .nop := by decide

/-- X2. -/
theorem test_decode_addAE : decode [0b10000011#8] = .ok (.addAE, []) := rfl

/-- X3. -/
theorem test_decode_cpB : decode [0b10111000#8] = .ok (.cpB, []) := rfl

/-- X4. -/
theorem test_decode_pushBC : decode [0b11000101#8] = .ok (.pushBC, []) := rfl

/-- X5. -/
theorem test_decode_popHL : decode [0b11100001#8] = .ok (.popHL, []) := rfl

/-- X6, `LD A,(0xC123)`: opcode, high byte, low byte; the byte after it is left over. -/
theorem test_decode_ldANn :
    decode [0b11111010#8, 0b11000001#8, 0b00100011#8, 0x77#8] = .ok (.ldANn 0xC123#16, [0x77#8]) := rfl

/-- X7: each of the listed bytes is unmapped. -/
theorem test_decode_unmapped :
    ([0x01, 0x80, 0x82, 0x84, 0xB7, 0xB9, 0xC1, 0xC4, 0xC6, 0xCB, 0xD5, 0xE0, 0xE2, 0xE5, 0xF1, 0xF9,
      0xFB, 0xFF] : List Nat).all (fun n => decodeOpcode (BitVec.ofNat 8 n) == none) = true := by decide

/-- The unmapped bytes number 250 (R86). -/
theorem test_unmapped_count :
    ((List.range 256).filter (fun n => decodeOpcode (BitVec.ofNat 8 n) == none)).length = 250 := by
  decide +kernel

/-- The table's `match` values, and an operand in the 24-bit pattern's low bits. -/
theorem test_table_words :
    decodeTableWord 8 0x00 = some .nop ∧ decodeTableWord 8 0x83 = some .addAE ∧
    decodeTableWord 8 0xB8 = some .cpB ∧ decodeTableWord 8 0xC5 = some .pushBC ∧
    decodeTableWord 8 0xE1 = some .popHL ∧ decodeTableWord 24 0xFA0000 = some (.ldANn 0x0000#16) ∧
    decodeTableWord 24 0xFA1234 = some (.ldANn 0x1234#16) ∧ decodeTableWord 8 0xCB = none := by decide

/-- The encodings the spec writes out (section 2.2 of the vectors). -/
theorem test_encode :
    encode (.ldANn 0x0010#16) = [0xFA#8, 0x00#8, 0x10#8] ∧
    encode (.ldANn 0xC123#16) = [0xFA#8, 0xC1#8, 0x23#8] ∧
    encode (.ldANn 0xFF80#16) = [0xFA#8, 0xFF#8, 0x80#8] := by decide

/-- R91's syntax. -/
theorem test_assembly :
    (Instr.ldANn 0x0010#16).assembly = "LD A,(0x0010)" ∧
    (Instr.ldANn 0xC12F#16).assembly = "LD A,(0xC12F)" := by decide +kernel

/-! ### Instructions -/

/-- A6: `FF + 01` sets Z, H and C. -/
theorem test_addAE_wraps :
    (after (exec .addAE { fresh with a := 0xFF#8, e := 0x01#8 })).map (fun s => (s.a, s.f)) =
      some (0x00#8, 0xB0#8) := by decide

/-- A15 and A5: stale flags go, and half-carry alone is set. -/
theorem test_addAE_clears_flags :
    (after (exec .addAE { fresh with a := 0x12#8, e := 0x34#8, f := 0xF0#8 })).map (fun s => s.f) =
      some 0x00#8 ∧
    (after (exec .addAE { fresh with a := 0x0F#8, e := 0x01#8 })).map (fun s => s.f) =
      some 0x20#8 := by decide

/-- K8 and K9: the cases a test of bit 7 gets wrong. -/
theorem test_cpB_is_unsigned :
    (after (exec .cpB { fresh with a := 0xA0#8, b := 0x10#8 })).map (fun s => s.f) = some 0x40#8 ∧
    (after (exec .cpB { fresh with a := 0x10#8, b := 0xA0#8 })).map (fun s => s.f) = some 0x50#8 := by
  decide

/-- K1 and K2. -/
theorem test_cpB_borrow_and_equal :
    (after (exec .cpB { fresh with a := 0x05#8, b := 0x0A#8 })).map (fun s => (s.a, s.f)) =
      some (0x05#8, 0x70#8) ∧
    (after (exec .cpB fresh)).map (fun s => s.f) = some 0xC0#8 := by decide

/-- Q1: the counters are overwritten and nothing else changes. -/
theorem test_nop :
    after (exec .nop { fresh with a := 0x12#8, f := 0x50#8, pc := 0x0040#16, m := 4, t := 16 }) =
      some { fresh with a := 0x12#8, f := 0x50#8, pc := 0x0040#16, m := 1, t := 4 } := by decide

/-- S2: a NOP at 0xFFFF leaves `pc` at 0x0000. -/
theorem test_nop_step_wraps :
    (after (step { fresh with pc := 0xFFFF#16 })).map (fun s => s.pc) = some 0x0000#16 := by decide

/-- T1. -/
theorem test_pushBC :
    (after (exec .pushBC { fresh with sp := 0xD000#16, b := 0x12#8, c := 0x34#8 })).map
      (fun s => (s.sp, s.mem)) = some (0xCFFE#16, [(0xCFFE, 0x34#8), (0xCFFF, 0x12#8)]) := by decide

/-- T4: the two bytes at opposite ends of the array. -/
theorem test_pushBC_wraps :
    (after (exec .pushBC { fresh with sp := 0x0001#16, b := 0xAB#8, c := 0xCD#8 })).map
      (fun s => (s.sp, s.mem)) = some (0xFFFF#16, [(0x0000, 0xAB#8), (0xFFFF, 0xCD#8)]) := by decide

/-- T2: memory stays. -/
theorem test_popHL :
    (after (exec .popHL (put { fresh with sp := 0xCFFE#16 } 0xCFFE [0x34#8, 0x12#8]))).map
      (fun s => (s.h, s.l, s.sp, s.mem)) =
      some (0x12#8, 0x34#8, 0xD000#16, [(0xCFFE, 0x34#8), (0xCFFF, 0x12#8)]) := by decide

/-- T5: across the top of memory. -/
theorem test_popHL_wraps :
    (after (exec .popHL (put (put { fresh with sp := 0xFFFF#16 } 0xFFFF [0xCD#8]) 0 [0xAB#8]))).map
      (fun s => (s.h, s.l, s.sp)) = some (0xAB#8, 0xCD#8, 0x0001#16) := by decide

/-- L4: the operand is big-endian. -/
theorem test_ldANn_big_endian :
    (after (step (put (put (put { fresh with pc := 0x0100#16, f := 0xC0#8 } 0x0100
      [0xFA#8, 0x10#8, 0x00#8]) 0x1000 [0x11#8]) 0x0010 [0x22#8]))).map
        (fun s => (s.a, s.pc, s.f, s.m, s.t)) = some (0x11#8, 0x0103#16, 0xC0#8, 4, 16) := by decide

/-- L7: opcode at 0xFFFF, operand at 0x0000 and 0x0001. -/
theorem test_ldANn_wraps :
    (after (step (put (put { fresh with pc := 0xFFFF#16 } 0xFFFF [0xFA#8]) 0
      [0x00#8, 0x05#8, 0x00#8, 0x00#8, 0x00#8, 0x42#8]))).map (fun s => (s.a, s.pc)) =
      some (0x42#8, 0x0002#16) := by decide

/-! ### Faults, reset, memory, host -/

/-- S3. -/
theorem test_unmapped_opcode_faults :
    faultOf (step (put { fresh with pc := 0x0200#16 } 0x0200 [0x76#8])) =
      some (.unimplementedOpcode 0x76#8 0x0200#16) := by decide

/-- L9. -/
theorem test_ldANn_at_fffe_faults :
    faultOf (step (put { fresh with pc := 0xFFFE#16 } 0xFFFE [0xFA#8, 0x12#8])) =
      some (.busFault 65536) := by decide

/-- Z2: Reset zeroes the registers and leaves memory. -/
theorem test_reset_keeps_memory :
    (put { fresh with a := 0x12#8, f := 0xF0#8, pc := 0x1234#16, sp := 0xFFFE#16, m := 4, t := 16 }
      0x0010 [0x7F#8]).resetRegisters = { fresh with mem := [(0x0010, 0x7F#8)] } := by decide

/-- F3: after a fault neither a step nor Reset does anything. -/
theorem test_fault_is_terminal :
    let x := (Session.mk (put fresh 0 [0x80#8]) none).move .step
    x.stop = some (.fault (.unimplementedOpcode 0x80#8 0x0000#16)) ∧
      (x.move .step).move .reset = x := by decide

/-- M3, M4 and M6. -/
theorem test_writeWord :
    fresh.writeWord 0 0xABCD#16 = .ok { fresh with mem := [(0, 0xAB#8), (1, 0xCD#8)] } ∧
    fresh.writeWord 0x7FFF 0xBEEF#16 =
      .ok { fresh with mem := [(0xFFFE, 0xBE#8), (0xFFFF, 0xEF#8)] } ∧
    fresh.writeWord 0xFFFF 0x0001#16 = .error (.busFault 0x1FFFE) := ⟨rfl, rfl, rfl⟩

/-- M8 and M9: an odd byte address, and no wrap at the top. -/
theorem test_readPair :
    (put fresh 0x0011 [0x12#8, 0x34#8]).readPair 0x0011 = .ok 0x1234#16 ∧
    (put fresh 0xFFFF [0x77#8]).readPair 0xFFFF = .error (.busFault 65536) := ⟨rfl, rfl⟩

/-- Writing the byte an unlisted address reads as removes the cell. -/
theorem test_memory_is_canonical :
    Memory.set [(1, 0x11#8), (2, 0x22#8)] 1 0x00#8 = [(2, 0x22#8)] ∧
    Memory.wf [(2, 0x22#8), (1, 0x11#8)] = false ∧ Memory.wf [(1, 0x00#8)] = false ∧
    Memory.wf [(65536, 0x11#8)] = false ∧ Memory.wf [(0, 0x11#8), (65535, 0x22#8)] = true := by decide

/-- An opcode-table word placed at reset is what the first step runs. -/
theorem test_withFetchWord_runs :
    (after (step (fresh.withFetchWord 24 0xFA0002))).map (fun s => (s.a, s.pc, s.m)) =
      some (0x02#8, 0x0003#16, 4) ∧
    (after (step (fresh.withFetchWord 8 0xE1))).map (fun s => (s.l, s.pc, s.sp)) =
      some (0xE1#8, 0x0001#16, 0x0002#16) := by decide

/-! ### Witnesses: the hypotheses of each statement hold together somewhere -/

/-- One state that a NOP step leaves in another, both legal. -/
theorem witness_nop_step :
    step fresh = .next { fresh with pc := 0x0001#16, m := 1, t := 4 } ∧ fresh.Inv := ⟨rfl, by decide⟩

theorem witness_EncodeOfDecode :
    decode [0xFA#8, 0xFF#8, 0x80#8, 0x00#8] = .ok (.ldANn 0xFF80#16, [0x00#8]) := rfl

theorem witness_LengthIsToldByTheOpcodeByte :
    decode [0xFA#8, 0x00#8, 0x10#8] = .ok (.ldANn 0x0010#16, []) ∧
    decode [0xFA#8, 0xC1#8, 0x23#8, 0x00#8] = .ok (.ldANn 0xC123#16, [0x00#8]) := ⟨rfl, rfl⟩

theorem witness_PlacedWordIsRunNext :
    decodeTableWord 24 0xFA1234 = some (.ldANn 0x1234#16) ∧
    (Instr.ldANn 0x1234#16).wellPlaced ({ fresh with pc := 0xFFFD#16 } : State).pc = true := by decide

theorem witness_StepRunsTheDecodedInstruction :
    decode (put { fresh with pc := 0xFFFF#16 } 0xFFFF [0xFA#8]).instrBytes =
      .ok (.ldANn 0x0000#16, []) := rfl

theorem witness_StepOnUndecodedBytesFaults :
    decode (put { fresh with pc := 0xFFFE#16 } 0xFFFE [0xCB#8]).instrBytes =
      .error (.unmapped 0xCB#8) ∧
    decode (put { fresh with pc := 0xFFFE#16 } 0xFFFE [0xFA#8]).instrBytes = .error .truncated :=
  ⟨rfl, rfl⟩

theorem witness_DispatchInvokesTheSelectedOperation :
    decodeOpcode (fresh.mem.get fresh.pc.toNat) = some .nop ∧
    invoke .nop fresh = .next { fresh with m := 1, t := 4 } ∧
    invoke .ldANn { fresh with pc := 0xFFFF#16 } = .fault (.busFault 65536) := ⟨rfl, rfl, rfl⟩

theorem witness_StepFaultsExactlyWhenListed :
    step (put fresh 0 [0x01#8]) = .fault (.unimplementedOpcode 0x01#8 0x0000#16) ∧
    step (put { fresh with pc := 0xFFFE#16 } 0xFFFE [0xFA#8]) = .fault (.busFault 65536) := ⟨rfl, rfl⟩

theorem witness_SafeStepsAreTheOnesThatComplete :
    (put { fresh with pc := 0xFFFD#16 } 0xFFFD [0xFA#8]).stepSafe = true ∧
    (put { fresh with pc := 0xFFFE#16 } 0xFFFE [0xFA#8]).stepSafe = false ∧
    (put fresh 0 [0xFB#8]).stepSafe = false := by decide

theorem witness_ControlFlowIsLinear :
    step (put { fresh with pc := 0xFFFD#16 } 0xFFFD [0xFA#8]) =
      .next { put { fresh with pc := 0xFFFD#16 } 0xFFFD [0xFA#8] with pc := 0x0000#16, m := 4, t := 16 } :=
  rfl

theorem witness_CostsAreTheTable :
    step (put { fresh with m := 3, t := 12 } 0 [0xFF#8]) =
      .fault (.unimplementedOpcode 0xFF#8 0x0000#16) := rfl

theorem witness_EmptyMemoryIsARunOfNops : ({ fresh with pc := 0xFFFF#16 } : State).mem = [] := rfl

theorem witness_NopOnlyWritesItsCost :
    ({ fresh with pc := 0xFFFF#16 } : State).mem.get 0xFFFF = 0x00#8 := rfl

theorem witness_LoadStepReadsBigEndianOperand :
    (put { fresh with pc := 0xFFFF#16 } 0xFFFF [0xFA#8]).mem.get 0xFFFF = 0xFA#8 ∧
    (0xFFFF#16 : Word) ≠ 0xFFFE#16 := by decide

theorem witness_LoadOperandOffTheTopFaults :
    ({ fresh with pc := 0xFFFF#16 } : State).pc = 0xFFFF#16 ∧
    (put { fresh with pc := 0xFFFE#16 } 0xFFFE [0xFA#8]).mem.get 0xFFFE = 0xFA#8 ∧
    (put { fresh with pc := 0xFFFF#16 } 0xFFFF [0xFA#8]).mem.get 0xFFFF = 0xFA#8 := by decide

/-- A faulting and a completing step of states that hold flags and other values nothing reads. -/
theorem witness_FlagsAreNeverRead :
    step (put { fresh with f := 0xF0#8, d := 0x11#8 } 0 [0x01#8]) =
      .fault (.unimplementedOpcode 0x01#8 0x0000#16) ∧
    step (put { fresh with f := 0xF0#8, d := 0x11#8 } 0 [0x83#8]) =
      .next { put { fresh with f := 0x80#8, d := 0x11#8 } 0 [0x83#8] with
        pc := 0x0001#16, m := 1, t := 4 } := ⟨rfl, rfl⟩

theorem witness_UnreadRegistersDoNotMatter :
    step (put { fresh with d := 0x11#8 } 0 [0x01#8]) =
      .fault (.unimplementedOpcode 0x01#8 0x0000#16) ∧
    step (put { fresh with d := 0x11#8, sp := 0x0100#16, h := 0x22#8, l := 0x33#8 } 0 [0xE1#8]) =
      .next { put { fresh with d := 0x11#8 } 0 [0xE1#8] with
        pc := 0x0001#16, sp := 0x0102#16, m := 3, t := 12 } := ⟨rfl, rfl⟩

/-- One completing state for each instruction, so that no case of the frame is empty; the memory clause
has an address that is one of the two stored to and one that is not. -/
theorem witness_FrameOfEveryInstruction :
    (after (exec .nop fresh)).isSome = true ∧ (after (exec .addAE fresh)).isSome = true ∧
    (after (exec .cpB fresh)).isSome = true ∧ (after (exec .pushBC fresh)).isSome = true ∧
    (after (exec .popHL fresh)).isSome = true ∧
    (after (exec (.ldANn 0xFFFF#16) fresh)).isSome = true ∧
    0xFFFD ≠ (fresh.sp - 1#16).toNat ∧ 0xFFFD ≠ (fresh.sp - 2#16).toNat ∧
    0xFFFE = (fresh.sp - 2#16).toNat := by decide

theorem witness_RunsNeverWriteBCDE :
    Completes 2 fresh { fresh with pc := 0x0002#16, m := 1, t := 4 } := rfl

/-- One state for each clause, the unmapped byte and both sides of the one at 0xFFFE among them. -/
theorem witness_StepAccessesAreTheTable :
    stepAccesses fresh = [⟨.fetch, 0⟩] ∧
    stepAccesses (put fresh 0 [0x83#8]) = [⟨.fetch, 0⟩] ∧
    stepAccesses (put fresh 0 [0xB8#8]) = [⟨.fetch, 0⟩] ∧
    stepAccesses (put fresh 0 [0xFF#8]) = [⟨.fetch, 0⟩] ∧
    stepAccesses (put { fresh with sp := 0x0001#16 } 0 [0xC5#8]) =
      [⟨.fetch, 0⟩, ⟨.write, 0⟩, ⟨.write, 65535⟩] ∧
    stepAccesses (put { fresh with sp := 0xFFFF#16 } 0 [0xE1#8]) =
      [⟨.fetch, 0⟩, ⟨.read, 65535⟩, ⟨.read, 0⟩] ∧
    stepAccesses (put { fresh with pc := 0xFFFD#16 } 0xFFFD [0xFA#8, 0x12#8, 0x34#8]) =
      [⟨.fetch, 65533⟩, ⟨.read, 65534⟩, ⟨.read, 65535⟩, ⟨.read, 0x1234⟩] ∧
    stepAccesses (put { fresh with pc := 0xFFFE#16 } 0xFFFE [0xFA#8, 0x12#8]) =
      [⟨.fetch, 65534⟩, ⟨.read, 65535⟩, ⟨.read, 65536⟩] := by decide

theorem witness_ChangedBytesAreWriteAccesses :
    step (put { fresh with b := 0xAB#8 } 0 [0xC5#8]) =
      .next { fresh with
        b := 0xAB#8, pc := 0x0001#16, sp := 0xFFFE#16, m := 3, t := 12
        mem := [(0, 0xC5#8), (0xFFFF, 0xAB#8)] } ∧
    Memory.get [(0, 0xC5#8), (0xFFFF, 0xAB#8)] 0xFFFF ≠
      (put { fresh with b := 0xAB#8 } 0 [0xC5#8]).mem.get 0xFFFF := ⟨rfl, by decide⟩

/-- Memory that differs at an address the step does not look at. -/
theorem witness_StepsReadOnlyTheirAccesses :
    (∀ x ∈ stepAccesses (put fresh 0 [0xE1#8]), x.addr < 65536 →
      Memory.get [(0, 0xE1#8), (2, 0x55#8)] x.addr = (put fresh 0 [0xE1#8]).mem.get x.addr) ∧
    (after (step (put fresh 0 [0xE1#8]))).isSome = true ∧
    faultOf (step (put fresh 0 [0xE0#8])) = some (.unimplementedOpcode 0xE0#8 0x0000#16) := by decide

theorem witness_ByteWriteChangesOneByte :
    (65536 : Nat) ≥ 65536 ∧ (65535 : Nat) < 65536 ∧ (65534 : Nat) ≠ 65535 := by decide

theorem witness_WordWriteIsHighByteFirst :
    (32768 : Nat) ≥ 32768 ∧ (32767 : Nat) < 32768 ∧ (65533 : Nat) ≠ 2 * 32767 ∧
    (65533 : Nat) ≠ 2 * 32767 + 1 := by decide

theorem witness_WideReadsAreBigEndian :
    fresh.readPair 65534 = .ok 0x0000#16 ∧ fresh.readPair 65535 = .error (.busFault 65536) ∧
    fresh.readPair 65536 = .error (.busFault 65536) ∧ fresh.readWord 32767 = .ok 0x0000#16 ∧
    fresh.readWord 32768 = .error (.busFault 65536) := ⟨rfl, rfl, rfl, rfl, rfl⟩

theorem witness_WritesReadBack :
    fresh.writeByte 0xFFFF 0xA5#8 = .ok { fresh with mem := [(0xFFFF, 0xA5#8)] } ∧
    fresh.writeWord 32767 0x1234#16 =
      .ok { fresh with mem := [(0xFFFE, 0x12#8), (0xFFFF, 0x34#8)] } ∧ 32767 < 32768 :=
  ⟨rfl, rfl, by decide⟩

theorem witness_StackOrderIsNotWordOrder :
    (({ fresh with sp := 0x0012#16 } : State).sp - 2#16).toNat = 2 * 0x0008 := by decide

theorem witness_PushedBytesAreFetched :
    ({ fresh with pc := 0xFFFF#16, b := 0xCB#8 } : State).pc = fresh.sp - 1#16 ∧
    ({ fresh with pc := 0xFFFE#16, c := 0xCB#8 } : State).pc = fresh.sp - 2#16 ∧
    decodeOpcode 0xCB#8 = none := by decide

/-- The borders of the regions, and the first address outside the array. -/
theorem witness_RegionsTileTheArray :
    regionOf 0x3FFF = some .cartridgeRom0 ∧ regionOf 0x4000 = some .cartridgeRom1 ∧
    regionOf 0xFEFF = some .graphicsSpriteInfo ∧ regionOf 0xFF00 = some .memoryMappedIo ∧
    regionOf 0xFF80 = some .zeroPageRam ∧ regionOf 0xFFFF = some .zeroPageRam ∧
    regionOf 0x10000 = none := by decide

theorem witness_ConstructionIsAllZero :
    Session.powerOn.state.readByte 65535 = .ok 0x00#8 ∧
    Session.powerOn.state.readByte 65536 = .error (.busFault 65536) := ⟨rfl, rfl⟩

theorem witness_ResetIsIdempotent :
    ({ fresh with a := 0x12#8, pc := 0x1234#16 } : State).mem = fresh.mem := rfl

/-- A completing step and a completing direct operation of a running machine, and a Reset that changes
it: the last state has another `pc` and another `a` than the one before. -/
theorem witness_RunningMachineTakesEachMove :
    step { fresh with pc := 0x1234#16, a := 0x12#8 } =
      .next { fresh with pc := 0x1235#16, a := 0x12#8, m := 1, t := 4 } ∧
    invoke .nop { fresh with pc := 0x1234#16 } =
      .next { fresh with pc := 0x1234#16, m := 1, t := 4 } ∧
    (Session.mk { fresh with pc := 0x1234#16, a := 0x12#8 } none).moves [.step, .reset, .step] =
      ⟨{ fresh with pc := 0x0001#16, m := 1, t := 4 }, none⟩ := ⟨rfl, rfl, rfl⟩

/-- Each range at its last value, and a register beside the one set. -/
theorem witness_SetupMovesWriteWhatTheyName :
    fresh.setup (.writeByte 65535 0xA5#8) = .ok { fresh with mem := [(65535, 0xA5#8)] } ∧
    fresh.setup (.writeWord 32767 0x1234#16) =
      .ok { fresh with mem := [(65534, 0x12#8), (65535, 0x34#8)] } ∧
    fresh.setup (.setReg .h 0x12#8) = .ok { fresh with h := 0x12#8 } ∧ Reg8.l ≠ Reg8.h ∧
    (65534 : Nat) ≠ 65535 ∧ (65533 : Nat) ≠ 2 * 32767 ∧ (65533 : Nat) ≠ 2 * 32767 + 1 :=
  ⟨rfl, rfl, rfl, by decide, by decide, by decide, by decide⟩

theorem witness_FaultingSetupHasNoState :
    fresh.setup (.setPc 0x0001#16) = .ok { fresh with pc := 0x0001#16 } ∧
    fresh.setupAll [.writeByte 65536 0x01#8, .setPc 0x0001#16] = .error (.busFault 65536) ∧
    fresh.setupAll [.writeWord 32768 0x0001#16, .setPc 0x0001#16] = .error (.busFault 65536) :=
  ⟨rfl, rfl, rfl⟩

theorem witness_FaultingStepWritesNothing :
    step (put { fresh with pc := 0xFFFE#16, a := 0x55#8 } 0xFFFE [0xFA#8]) = .fault (.busFault 65536) :=
  rfl

theorem witness_RecordedFaultIsPermanent :
    (Session.mk fresh (some (.fault (.busFault 65536)))).stop = some (.fault (.busFault 65536)) := rfl

theorem witness_HostMovesKeepTheInvariant :
    (put { fresh with f := 0xF0#8, m := 4, t := 16 } 0xFFFF [0xFF#8]).Inv := by decide

theorem witness_SetupReachesExactlyTheLegalStates :
    fresh.setupAll [.writeByte 0xFFFF 0xFF#8, .setFlags ⟨true, true, true, true⟩, .setCounters 4] =
      .ok { fresh with f := 0xF0#8, m := 4, t := 16, mem := [(0xFFFF, 0xFF#8)] } ∧
    ({ fresh with f := 0xF0#8, m := 4, t := 16, mem := [(0xFFFF, 0xFF#8)] } : State).Inv :=
  ⟨rfl, by decide⟩

/-- A fault of the set-up itself, and a state that is not legal. -/
theorem witness_setup_faults_and_illegal_states :
    fresh.setupAll [.setPc 0x0001#16, .writeWord 32768 0x0001#16] = .error (.busFault 65536) ∧
    ¬ ({ fresh with f := 0x01#8 } : State).Inv ∧ ¬ ({ fresh with m := 1 } : State).Inv ∧
    ¬ ({ fresh with mem := [(65536, 0x01#8)] } : State).Inv := ⟨rfl, by decide⟩

theorem witness_StatesAreWhatTheyReadAs :
    fresh.Inv ∧ fresh = { fresh with mem := fresh.mem } ∧
    ∀ x, x < 65536 → fresh.readByte x = fresh.readByte x := ⟨by decide, rfl, fun _ _ => rfl⟩

end Sys2Proof.Tests
end

section
/-! PROOFS. The byte accessors and the constructed core (spec/20_memory.md R51 to R53,
spec/70_reset_and_hazards.md R190). -/

namespace Sys2Proof.Machine

/-! ### One byte written -/

@[simp] theorem Memory.get_set_self (m : Memory) (a : Nat) (v : Byte) : (m.set a v).get a = v := by
  rw [Memory.get_set, if_pos rfl]

theorem Memory.get_set_of_ne (m : Memory) {a x : Nat} (v : Byte) (hx : x ≠ a) :
    (m.set a v).get x = m.get x := by
  rw [Memory.get_set, if_neg hx]

/-- Settles O37: outside the array the write faults; inside it the answer is the state with that one
address set, and the law of a read after a write gives both the written byte and the frame. -/
theorem byteWriteChangesOneByte : Obligations.ByteWriteChangesOneByte := by
  intro s addr v
  refine ⟨fun hout => s.writeByte_of_ge v hout, fun hin => ?_⟩
  exact ⟨{ s with mem := s.mem.set addr v }, s.writeByte_of_lt v hin, rfl,
    s.mem.get_set_self addr v, fun x hx => s.mem.get_set_of_ne v hx⟩

/-! ### The constructed core -/

@[simp] theorem State.reg_reset (r : Reg8) : State.reset.reg r = 0x00#8 := by
  cases r <;> rfl

@[simp] theorem State.reset_mem_get (x : Nat) : State.reset.mem.get x = 0x00#8 := Memory.get_nil x

theorem State.reset_readByte_of_lt {x : Nat} (hx : x < capacity) :
    State.reset.readByte x = .ok 0x00#8 := by
  rw [State.readByte_of_lt _ hx, State.reset_mem_get]

/-- Settles O46: a constructed machine runs in the reset state, whose registers are zero, whose empty
memory reads 00 at each address of the array, and whose accessor faults at each address above. -/
theorem constructionIsAllZero : Obligations.ConstructionIsAllZero :=
  ⟨rfl, State.reg_reset, rfl, rfl, rfl, rfl, rfl, fun _ hx => State.reset_readByte_of_lt hx,
    fun _ hx => State.reset.readByte_of_ge hx⟩

end Sys2Proof.Machine
end

section
/-! PROOFS. The accumulator after ADD A,E (spec/41_alu.md R120, R121). -/

namespace Sys2Proof.Machine

/-- The dispatch arm of ADD A,E. -/
theorem exec_addAE (s : State) : exec .addAE s = execAddAE s := rfl

/-- ADD A,E writes `a` on its single path, so no flag can choose what it holds (R121). -/
theorem exec_addAE_a (s : State) :
    ∃ s', exec .addAE s = .next s' ∧ s'.a = BitVec.ofNat 8 (s.a.toNat + s.e.toNat) :=
  ⟨_, exec_addAE s, by simp only [State.charge_a, State.setF_a, State.setReg_a, if_pos]⟩

/-- Two bytes sum to at most 510, so a multiple of 256 among their sums is 0 or 256. -/
theorem byte_sum_of_mod_eq_zero {x y : Byte} (h : (x.toNat + y.toNat) % 256 = 0) :
    x.toNat + y.toNat = 0 ∨ x.toNat + y.toNat = 256 := by
  have hx : x.toNat < 256 := x.isLt
  have hy : y.toNat < 256 := y.isLt
  omega

/-- Settles O19: `a` holds the truncated sum, and a truncated sum of two bytes is zero only for the
two multiples of 256 they can reach. -/
theorem addNeverZeroesOnCarry : Obligations.AddNeverZeroesOnCarry := by
  intro s
  obtain ⟨s', hexec, ha⟩ := exec_addAE_a s
  have hsum : s'.a.toNat = (s.a.toNat + s.e.toNat) % 256 := by rw [ha, BitVec.toNat_ofNat]
  refine ⟨s', hexec, hsum, fun hzero => byte_sum_of_mod_eq_zero ?_⟩
  rw [← hsum, hzero]
  rfl

end Sys2Proof.Machine
end

section
/-! PROOFS. The cause of a bus fault (spec/60_exceptions.md R161). -/

namespace Sys2Proof.Machine

/-- An access that answers a value inside the array and faults at its own address outside it faults
exactly outside, and no other way. -/
theorem access_eq_error_iff {α : Type} {access : Except Fault α} {addr : Nat} {x : α} {f : Fault}
    (hin : addr < capacity → access = .ok x)
    (hout : capacity ≤ addr → access = .error (.busFault addr)) :
    access = .error f ↔ capacity ≤ addr ∧ f = .busFault addr := by
  constructor
  · intro hfault
    obtain hlt | hge := Nat.lt_or_ge addr capacity
    · cases (hin hlt).symm.trans hfault
    · cases (hout hge).symm.trans hfault
      exact ⟨hge, rfl⟩
  · rintro ⟨hge, rfl⟩
    exact hout hge

theorem State.readByte_eq_error_iff (s : State) (addr : Nat) (f : Fault) :
    s.readByte addr = .error f ↔ capacity ≤ addr ∧ f = .busFault addr :=
  access_eq_error_iff s.readByte_of_lt s.readByte_of_ge

theorem State.writeByte_eq_error_iff (s : State) (addr : Nat) (v : Byte) (f : Fault) :
    s.writeByte addr v = .error f ↔ capacity ≤ addr ∧ f = .busFault addr :=
  access_eq_error_iff (s.writeByte_of_lt v) (s.writeByte_of_ge v)

/-- Settles O38: both byte accessors answer a value inside the array and fault at their own address
outside it, so the one law of such accesses gives both halves. -/
theorem busFaultRecordsTheAddress : Obligations.BusFaultRecordsTheAddress :=
  fun s addr v f => ⟨s.readByte_eq_error_iff addr f, s.writeByte_eq_error_iff addr v f⟩

end Sys2Proof.Machine
end

section
/-! PROOFS. Words and their bytes, the opcode map, and the round trip of the decoder and the encoder
(spec/20_memory.md R58, spec/30_encoding.md sections 1 to 5). -/

namespace Sys2Proof

/-! ### A word is its two bytes -/

theorem beWord_toNat (hi lo : Byte) : (beWord hi lo).toNat = hi.toNat * 256 + lo.toNat := by
  have hlo : lo.toNat < 2 ^ 8 := lo.isLt
  rw [beWord, BitVec.toNat_append, ← Nat.shiftLeft_add_eq_or_of_lt hlo, Nat.shiftLeft_eq]

theorem highByte_toNat (v : Word) : (highByte v).toNat = v.toNat / 256 := by
  have hv : v.toNat < 65536 := v.isLt
  rw [highByte, BitVec.extractLsb'_toNat, Nat.shiftRight_eq_div_pow]
  omega

theorem lowByte_toNat (v : Word) : (lowByte v).toNat = v.toNat % 256 := by
  rw [lowByte, BitVec.extractLsb'_toNat, Nat.shiftRight_zero]

@[simp] theorem beWord_highByte_lowByte (v : Word) : beWord (highByte v) (lowByte v) = v := by
  apply BitVec.eq_of_toNat_eq
  rw [beWord_toNat, highByte_toNat, lowByte_toNat]
  omega

@[simp] theorem highByte_beWord (hi lo : Byte) : highByte (beWord hi lo) = hi := by
  have hlo : lo.toNat < 256 := lo.isLt
  apply BitVec.eq_of_toNat_eq
  rw [highByte_toNat, beWord_toNat]
  omega

@[simp] theorem lowByte_beWord (hi lo : Byte) : lowByte (beWord hi lo) = lo := by
  have hlo : lo.toNat < 256 := lo.isLt
  apply BitVec.eq_of_toNat_eq
  rw [lowByte_toNat, beWord_toNat]
  omega

/-! ### The opcode map -/

@[simp] theorem decodeOpcode_opcode (o : Operation) : decodeOpcode o.opcode = some o := by
  cases o <;> rfl

/-- The map answers an operation only for that operation's byte (R84). -/
theorem decodeOpcode_eq_some_iff {op : Byte} {o : Operation} :
    decodeOpcode op = some o ↔ op = o.opcode := by
  constructor
  · intro h
    unfold decodeOpcode at h
    split_ifs at h with h0 h1 h2 h3 h4 h5 <;> cases h <;> assumption
  · rintro rfl
    exact decodeOpcode_opcode o

theorem decodeOpcode_eq_none_iff {op : Byte} :
    decodeOpcode op = none ↔ ∀ o : Operation, op ≠ o.opcode := by
  simp only [Option.eq_none_iff_forall_not_mem, Option.mem_def, decodeOpcode_eq_some_iff]

/-- Settles O3: the map answers an operation exactly for that operation's byte, and the six bytes are
the rows of the table. -/
theorem opcodeMapIsTheTable : Obligations.OpcodeMapIsTheTable := by
  intro op o
  rw [decodeOpcode_eq_some_iff]
  cases o <;> simp [Operation.opcode]

/-! ### The round trip -/

/-- Settles O1: the opcode byte selects the arm of the decoder that gives the instruction back, and
the one operand is put together again from its two bytes. -/
theorem decodeOfEncode : Obligations.DecodeOfEncode := by
  intro i rest
  cases i with
  | ldANn nn =>
    calc decode (encode (.ldANn nn) ++ rest)
        = .ok (.ldANn (beWord (highByte nn) (lowByte nn)), rest) := rfl
      _ = .ok (.ldANn nn, rest) := by rw [beWord_highByte_lowByte]
  | _ => rfl

/-- Settles O2: by the operation that the first byte selects, which fixes that byte; the operand of
LD A,(nn) is cut into the two bytes it was read from. -/
theorem encodeOfDecode : Obligations.EncodeOfDecode := by
  intro bytes rest i h
  cases bytes with
  | nil => cases h
  | cons op tail =>
    cases ho : decodeOpcode op with
    | none => simp only [decode, ho, reduceCtorEq] at h
    | some o =>
      obtain rfl := decodeOpcode_eq_some_iff.mp ho
      cases o with
      | ldANn =>
        match tail with
        | [] => cases h
        | [_] => cases h
        | hi :: lo :: after =>
          cases h
          simp only [encode, highByte_beWord, lowByte_beWord]
          rfl
      | _ => cases h; rfl

/-- Decoding answers an instruction exactly for the bytes that begin with its encoding. -/
theorem decode_eq_ok_iff {bytes rest : List Byte} {i : Instr} :
    decode bytes = .ok (i, rest) ↔ bytes = encode i ++ rest := by
  constructor
  · exact encodeOfDecode bytes rest i
  · rintro rfl
    exact decodeOfEncode i rest

/-- The encoding is the opcode byte and then the operand's bytes. -/
theorem encode_eq_opcode_cons (i : Instr) : ∃ operand, encode i = i.operation.opcode :: operand := by
  cases i <;> exact ⟨_, rfl⟩

@[simp] theorem encode_length (i : Instr) : (encode i).length = i.length := by
  cases i <;> rfl

/-- The operation, and with it the length, is told by the opcode byte (R89). -/
theorem operation_of_decode {op : Byte} {tail rest : List Byte} {i : Instr}
    (h : decode (op :: tail) = .ok (i, rest)) : op = i.operation.opcode := by
  obtain ⟨operand, hi⟩ := encode_eq_opcode_cons i
  rw [decode_eq_ok_iff, hi] at h
  exact (List.cons.inj h).1

theorem length_eq_of_opcode (i : Instr) :
    i.length = if i.operation.opcode = 0xFA#8 then 3 else 1 := by
  cases i <;> rfl

/-- Settles O6: the bytes are the encoding and the rest, which gives the number consumed, and the
first of them is the opcode byte, which gives the length. -/
theorem lengthIsToldByTheOpcodeByte : Obligations.LengthIsToldByTheOpcodeByte := by
  intro op xs ys rx ry i j hi hj
  have hlen : xs.length + 1 = i.length + rx.length := by
    rw [← encode_length, ← List.length_append, ← decode_eq_ok_iff.mp hi, List.length_cons]
  have hopi := operation_of_decode hi
  have hopj := operation_of_decode hj
  refine ⟨hlen, ?_, ?_⟩
  · rw [length_eq_of_opcode, length_eq_of_opcode, ← hopi, ← hopj]
  · rw [length_eq_of_opcode, ← hopi]

/-- Settles O5: each word is the encoding of its instruction with nothing after it. -/
theorem writtenOutWordsDecode : Obligations.WrittenOutWordsDecode := by
  refine ⟨?_, ?_, ?_, ?_, ?_, ?_, ?_, ?_⟩ <;> exact decode_eq_ok_iff.mpr (by decide)

/-! ### What is no instruction -/

/-- A byte string is refused as unmapped exactly when the opcode map has nothing for its first byte. -/
theorem decode_eq_unmapped_iff {op : Byte} {tail : List Byte} :
    decode (op :: tail) = .error (.unmapped op) ↔ decodeOpcode op = none := by
  cases ho : decodeOpcode op with
  | none => simp only [decode, ho]
  | some o =>
    simp only [decode, ho, reduceCtorEq, iff_false]
    cases o with
    | ldANn =>
      match tail with
      | [] => simp
      | [_] => simp
      | _ :: _ :: _ => simp
    | _ => simp

/-- Settles O4: the ranges are the gaps between the six mapped bytes. -/
theorem unmappedBytesAreRefused : Obligations.UnmappedBytesAreRefused := by
  intro op rest
  have hlt : op.toNat < 256 := op.isLt
  have hne (o : Operation) : op ≠ o.opcode ↔ op.toNat ≠ o.opcode.toNat := BitVec.toNat_inj.not.symm
  have hall : decodeOpcode op = none ↔
      op.toNat ≠ 0x00 ∧ op.toNat ≠ 0x83 ∧ op.toNat ≠ 0xB8 ∧ op.toNat ≠ 0xC5 ∧ op.toNat ≠ 0xE1 ∧
        op.toNat ≠ 0xFA := by
    rw [decodeOpcode_eq_none_iff]
    simp only [hne]
    exact ⟨fun h => ⟨h .nop, h .addAE, h .cpB, h .pushBC, h .popHL, h .ldANn⟩,
      fun ⟨h0, h1, h2, h3, h4, h5⟩ o => by cases o <;> assumption⟩
  rw [decode_eq_unmapped_iff, hall]
  omega

/-! ### Placement -/

/-- The second operand address leaves the array only where the first is its last address. -/
theorem add_one_succ_lt_capacity_iff (start : Word) :
    (start + 1#16).toNat + 1 < capacity ↔ start ≠ 0xFFFE#16 := by
  have hlt : start.toNat < 65536 := start.isLt
  rw [ne_eq, ← BitVec.toNat_inj, BitVec.toNat_add, BitVec.toNat_ofNat, BitVec.toNat_ofNat]
  simp only [capacity]
  omega

/-- Settles O7: only LD A,(nn) is asked anything, and its answer is no where the second operand byte
would lie outside the array. -/
theorem onlyLdAtTheTopIsIllPlaced : Obligations.OnlyLdAtTheTopIsIllPlaced := by
  intro i start
  cases i with
  | ldANn nn =>
    rw [Instr.wellPlaced, decide_eq_false_iff_not, add_one_succ_lt_capacity_iff, not_not]
    exact ⟨fun h => ⟨h, nn, rfl⟩, And.left⟩
  | _ => simp [Instr.wellPlaced]

end Sys2Proof
end

section
/-! PROOFS. The flags of the two arithmetic instructions (spec/10_state.md section 5, spec/41_alu.md
section 3). -/

namespace Sys2Proof.Machine

/-! ### The bits of a flag byte (R27) -/

@[simp] theorem Flags.toByte_bit_z (x : Flags) : x.toByte.getLsbD 7 = x.z := by
  obtain ⟨z, n, h, c⟩ := x
  cases z <;> cases n <;> cases h <;> cases c <;> rfl

@[simp] theorem Flags.toByte_bit_n (x : Flags) : x.toByte.getLsbD 6 = x.n := by
  obtain ⟨z, n, h, c⟩ := x
  cases z <;> cases n <;> cases h <;> cases c <;> rfl

@[simp] theorem Flags.toByte_bit_h (x : Flags) : x.toByte.getLsbD 5 = x.h := by
  obtain ⟨z, n, h, c⟩ := x
  cases z <;> cases n <;> cases h <;> cases c <;> rfl

@[simp] theorem Flags.toByte_bit_c (x : Flags) : x.toByte.getLsbD 4 = x.c := by
  obtain ⟨z, n, h, c⟩ := x
  cases z <;> cases n <;> cases h <;> cases c <;> rfl

/-- A byte whose low nibble is zero has none of the four low bits. -/
theorem getLsbD_of_lowNibble_eq_zero {v : Byte} (h : lowNibble v = 0) {k : Nat} (hk : k < 4) :
    v.getLsbD k = false := by
  have hbit : (v.toNat % 2 ^ 4).testBit k = v.toNat.testBit k := by
    rw [Nat.testBit_mod_two_pow, decide_eq_true hk, Bool.true_and]
  rw [BitVec.getLsbD, ← hbit, show v.toNat % 2 ^ 4 = 0 from h, Nat.zero_testBit]

theorem Flags.toByte_low_bits (x : Flags) {k : Nat} (hk : k < 4) : x.toByte.getLsbD k = false :=
  getLsbD_of_lowNibble_eq_zero x.lowNibble_toByte hk

/-! ### The half-carry rules (R124) -/

/-- The carry into bit 4 of a sum is what bit 4 of the sum differs by from the two operands. -/
theorem carry_eq_xor_bit (x y : Byte) (k : Nat) (hk : k < 8) :
    BitVec.carry k x y false = ((x + y) ^^^ x ^^^ y).getLsbD k := by
  rw [BitVec.getLsbD_xor, BitVec.getLsbD_xor, BitVec.getLsbD_add hk]
  cases x.getLsbD k <;> cases y.getLsbD k <;> simp

theorem halfCarryAdd_bit3 (x y : Byte) :
    halfCarryAdd .bit3 x y = decide (x.toNat % 16 + y.toNat % 16 > 15) := rfl

theorem halfBorrowSub_bit3 (x y : Byte) :
    halfBorrowSub .bit3 x y = decide (x.toNat % 16 < y.toNat % 16) := rfl

theorem halfCarryAdd_eq_carry (x y : Byte) :
    halfCarryAdd .bit3 x y = BitVec.carry 4 x y false := by
  rw [halfCarryAdd_bit3, BitVec.carry, decide_eq_decide, Bool.toNat_false]
  omega

/-- The borrow of `x - y` is the carry of putting the difference and `y` together again. -/
theorem halfBorrowSub_eq_carry (x y : Byte) :
    halfBorrowSub .bit3 x y = BitVec.carry 4 (x - y) y false := by
  have hx : x.toNat < 256 := x.isLt
  have hy : y.toNat < 256 := y.isLt
  rw [halfBorrowSub_bit3, BitVec.carry, decide_eq_decide, Bool.toNat_false, BitVec.toNat_sub]
  omega

/-- Settles O28: with HC = bit3 both rules are the carry into bit 4 of a sum, for the compare the sum
of the difference and its subtrahend. -/
theorem halfCarryIsTheCarryOutOfBitThree : Obligations.HalfCarryIsTheCarryOutOfBitThree := by
  intro x y
  refine ⟨?_, ?_, rfl, rfl⟩
  · rw [halfCarryAdd_eq_carry, carry_eq_xor_bit x y 4 (by omega)]
  · have hsum : x - y + y = x := BitVec.sub_add_cancel x y
    rw [halfBorrowSub_eq_carry, carry_eq_xor_bit (x - y) y 4 (by omega), hsum, BitVec.xor_comm x]

/-! ### Carry -/

/-- Bit 8 of the 9-bit sum of two bytes says that they sum to 256 or more. -/
theorem bit8_of_sum (x y : Byte) :
    (x.zeroExtend 9 + y.zeroExtend 9).getLsbD 8 = decide (x.toNat + y.toNat > 255) := by
  have hx : x.toNat < 256 := x.isLt
  have hy : y.toNat < 256 := y.isLt
  have hmsb := BitVec.msb_eq_decide (x.zeroExtend 9 + y.zeroExtend 9)
  rw [BitVec.msb_eq_getLsbD_last] at hmsb
  rw [hmsb, decide_eq_decide, BitVec.toNat_add, BitVec.toNat_setWidth, BitVec.toNat_setWidth]
  omega

/-- Settles O29: each bit of the flag byte is its flag, and the four low bits are none. -/
theorem flagBytesHoldOnlyTheFourFlags : Obligations.FlagBytesHoldOnlyTheFourFlags := by
  intro hc x y
  refine ⟨?_, ?_, ?_, ?_, fun _ => Flags.toByte_low_bits _, fun _ => Flags.toByte_low_bits _⟩
  · rw [Flags.toByte_bit_c, bit8_of_sum]
    rfl
  · rw [Flags.toByte_bit_c, BitVec.ult]
    rfl
  · exact Flags.toByte_bit_n _
  · exact Flags.toByte_bit_n _

end Sys2Proof.Machine
end

section
/-! PROOFS. What each instruction answers, as one equation on the fields of the state it is entered
with (spec/41_alu.md to spec/44_load_absolute.md). -/

namespace Sys2Proof.Machine

theorem exec_nop_eq (s : State) : exec .nop s = .next { s with m := 1, t := 4 } := rfl

theorem exec_addAE_eq (s : State) :
    exec .addAE s = .next { s with
      a := s.a + s.e, f := (addFlags halfCarryRule s.a s.e).toByte, m := 1, t := 4 } := by
  have hsum : BitVec.ofNat 8 (s.a.toNat + s.e.toNat) = s.a + s.e := by
    rw [BitVec.ofNat_add, BitVec.ofNat_toNat, BitVec.ofNat_toNat, BitVec.setWidth_eq,
      BitVec.setWidth_eq]
  rw [exec_addAE, execAddAE, hsum]
  rfl

theorem exec_cpB_eq (s : State) :
    exec .cpB s = .next { s with
      f := (compareFlags halfCarryRule s.a s.b).toByte, m := 1, t := 4 } := rfl

theorem exec_pushBC_eq (s : State) :
    exec .pushBC s = .next { s with
      mem := (s.mem.set (s.sp - 1#16).toNat s.b).set (s.sp - 2#16).toNat s.c
      sp := s.sp - 2#16, m := 3, t := 12 } := by
  rw [exec, execPushBC, State.pushPair_eq]
  rfl

theorem exec_popHL_eq (s : State) :
    exec .popHL s = .next { s with
      l := s.mem.get s.sp.toNat, h := s.mem.get (s.sp + 1#16).toNat
      sp := s.sp + 2#16, m := 3, t := 12 } := by
  rw [exec, execPopHL, State.popPair_eq]
  rfl

theorem exec_ldANn_eq (nn : Word) (s : State) :
    exec (.ldANn nn) s = .next { s with
      a := s.mem.get nn.toNat, pc := s.pc + 2#16, m := 4, t := 16 } := by
  rw [exec, execLdANn, State.readByte_word]
  rfl

/-- The next state of an instruction, field by field. -/
def effect : Instr → State → State
  | .nop, s => { s with m := 1, t := 4 }
  | .addAE, s =>
    { s with a := s.a + s.e, f := (addFlags halfCarryRule s.a s.e).toByte, m := 1, t := 4 }
  | .cpB, s => { s with f := (compareFlags halfCarryRule s.a s.b).toByte, m := 1, t := 4 }
  | .pushBC, s =>
    { s with
      mem := (s.mem.set (s.sp - 1#16).toNat s.b).set (s.sp - 2#16).toNat s.c
      sp := s.sp - 2#16, m := 3, t := 12 }
  | .popHL, s =>
    { s with
      l := s.mem.get s.sp.toNat, h := s.mem.get (s.sp + 1#16).toNat
      sp := s.sp + 2#16, m := 3, t := 12 }
  | .ldANn nn, s => { s with a := s.mem.get nn.toNat, pc := s.pc + 2#16, m := 4, t := 16 }

/-- Every meaning answers its effect, and nothing else. -/
theorem exec_eq (i : Instr) (s : State) : exec i s = .next (effect i s) := by
  cases i with
  | nop => exact exec_nop_eq s
  | addAE => exact exec_addAE_eq s
  | cpB => exact exec_cpB_eq s
  | pushBC => exact exec_pushBC_eq s
  | popHL => exact exec_popHL_eq s
  | ldANn nn => exact exec_ldANn_eq nn s

theorem exec_eq_next_iff {i : Instr} {s s' : State} : exec i s = .next s' ↔ s' = effect i s := by
  rw [exec_eq, Host.Outcome.next.injEq, eq_comm]

/-! ### The arithmetic instructions -/

/-- Settles O18: the equation of the instruction, its flag byte written out mask by mask. -/
theorem addResult : Obligations.AddResult := by
  intro s
  rw [exec_addAE_eq, addFlags, halfCarryRule, halfCarryAdd_bit3, Flags.toByte]
  simp [flagBit, maskZ, maskH, maskC]

/-- Settles O20: the equation of the instruction, its flag byte written out mask by mask. -/
theorem compareResult : Obligations.CompareResult := by
  intro s
  rw [exec_cpB_eq, compareFlags, halfCarryRule, halfBorrowSub_bit3, Flags.toByte,
    BitVec.or_comm (flagBit _ maskZ)]
  simp [flagBit, maskZ, maskN, maskH, maskC]

/-- Bit 7 of a difference of bytes, as a condition on the operands. -/
theorem bit7_of_sub (x y : Byte) :
    (x - y).getLsbD 7 = decide (128 ≤ (256 - y.toNat + x.toNat) % 256) := by
  have hmsb := BitVec.msb_eq_decide (x - y)
  rw [BitVec.msb_eq_getLsbD_last, BitVec.toNat_sub] at hmsb
  exact hmsb

theorem sub_eq_zero_iff_eq (x y : Byte) : x - y = 0x00#8 ↔ x = y := by
  constructor <;> intro h <;> bv_omega

/-- Settles O21: Z and C are the flags of the comparison; bit 7 of the difference agrees with the
unsigned borrow by arithmetic on the two operands. -/
theorem compareCarryIsUnsigned : Obligations.CompareCarryIsUnsigned := by
  intro s
  refine ⟨_, exec_cpB_eq s, ?_, ?_, ?_, ?_⟩
  · rw [Flags.toByte_bit_z]
    exact decide_eq_true_iff
  · rw [Flags.toByte_bit_z, sub_eq_zero_iff_eq]
    exact decide_eq_true_iff
  · rw [Flags.toByte_bit_c]
    exact decide_eq_true_iff
  · have ha : s.a.toNat < 256 := s.a.isLt
    have hb : s.b.toNat < 256 := s.b.isLt
    rw [Flags.toByte_bit_c, bit7_of_sub, compareFlags, decide_eq_decide]
    omega

/-! ### The stack -/

/-- The two stack bytes never share an address. -/
theorem sub_one_toNat_ne_sub_two_toNat (v : Word) : (v - 1#16).toNat ≠ (v - 2#16).toNat := by
  bv_omega

/-- The memory of a push, read at the higher stack byte. -/
theorem Memory.get_push_high (m : Memory) (sp : Word) (hi lo : Byte) :
    ((m.set (sp - 1#16).toNat hi).set (sp - 2#16).toNat lo).get (sp - 1#16).toNat = hi := by
  rw [Memory.get_set_of_ne _ _ (sub_one_toNat_ne_sub_two_toNat sp), Memory.get_set_self]

/-- The memory of a push, read anywhere but at the two stack bytes. -/
theorem Memory.get_push_of_ne (m : Memory) {sp : Word} {x : Nat} (hi lo : Byte)
    (h1 : x ≠ (sp - 1#16).toNat) (h2 : x ≠ (sp - 2#16).toNat) :
    ((m.set (sp - 1#16).toNat hi).set (sp - 2#16).toNat lo).get x = m.get x := by
  rw [Memory.get_set_of_ne _ _ h2, Memory.get_set_of_ne _ _ h1]

/-- Settles O22: the equation of the instruction, and a read after each of the two writes. -/
theorem pushResult : Obligations.PushResult := by
  intro s
  exact ⟨_, exec_pushBC_eq s, rfl, Memory.get_push_high _ _ _ _, Memory.get_set_self _ _ _,
    fun _ => Memory.get_push_of_ne _ _ _⟩

/-- Settles O23. -/
theorem popResult : Obligations.PopResult := exec_popHL_eq

/-- Settles O24: the pop reads the two addresses the push wrote, since one above the new `sp` is one
below the old. -/
theorem pushThenPopRestores : Obligations.PushThenPopRestores := by
  intro s
  have hup1 : s.sp - 2#16 + 1#16 = s.sp - 1#16 := by bv_omega
  have hup2 : s.sp - 2#16 + 2#16 = s.sp := by bv_omega
  refine ⟨_, _, exec_pushBC_eq s, exec_popHL_eq _, ?_, Memory.get_set_self _ _ _, hup2, rfl, rfl,
    Memory.get_push_high _ _ _ _, Memory.get_set_self _ _ _⟩
  simp only [hup1]
  exact Memory.get_push_high _ _ _ _

/-! ### The load -/

/-- Settles O25. -/
theorem loadResult : Obligations.LoadResult := fun s nn => exec_ldANn_eq nn s

end Sys2Proof.Machine
end

section
/-! PROOFS. The instruction a step runs, as a reading of the state that looks at `pc` and memory only,
and the step as that reading and one meaning (spec/40_instruction_cycle.md sections 1 and 4,
spec/60_exceptions.md R169). -/

namespace Sys2Proof.Machine

/-! ### Fetching -/

/-- The instruction at `pc` with its operand, or the fault of fetching it (R100 to R104). -/
def State.fetchInstr (s : State) : Except Fault Instr :=
  match decodeOpcode (s.mem.get s.pc.toNat) with
  | none => .error (.unimplementedOpcode (s.mem.get s.pc.toNat) s.pc)
  | some o => (s.advance 1#16).readOperand o

theorem State.fetchInstr_of_none {s : State} (h : decodeOpcode (s.mem.get s.pc.toNat) = none) :
    s.fetchInstr = .error (.unimplementedOpcode (s.mem.get s.pc.toNat) s.pc) := by
  rw [State.fetchInstr, h]

theorem State.fetchInstr_of_some {s : State} {o : Operation}
    (h : decodeOpcode (s.mem.get s.pc.toNat) = some o) :
    s.fetchInstr = (s.advance 1#16).readOperand o := by
  rw [State.fetchInstr, h]

theorem State.fetchInstr_of_opcode {s : State} {o : Operation}
    (h : s.mem.get s.pc.toNat = o.opcode) : s.fetchInstr = (s.advance 1#16).readOperand o :=
  State.fetchInstr_of_some (decodeOpcode_eq_some_iff.mpr h)

/-- The instruction fetched is one of the operation that the opcode byte selects. -/
theorem State.opcode_of_fetchInstr {s : State} {i : Instr} (h : s.fetchInstr = .ok i) :
    s.mem.get s.pc.toNat = i.operation.opcode := by
  cases ho : decodeOpcode (s.mem.get s.pc.toNat) with
  | none =>
    rw [State.fetchInstr_of_none ho] at h
    cases h
  | some o =>
    rw [State.fetchInstr_of_some ho] at h
    rw [State.readOperand_ok h, ← decodeOpcode_eq_some_iff, ho]

/-- Fetching looks at `pc` and memory only. -/
theorem State.fetchInstr_congr {s u : State} (hpc : u.pc = s.pc) (hmem : u.mem = s.mem) :
    u.fetchInstr = s.fetchInstr := by
  have hoperand (o : Operation) :
      (u.advance 1#16).readOperand o = (s.advance 1#16).readOperand o := by
    cases o <;> simp only [State.readOperand, State.readPair_eq, State.advance_pc,
      State.advance_mem, hpc, hmem]
  cases ho : decodeOpcode (s.mem.get s.pc.toNat) with
  | none => rw [State.fetchInstr_of_none ho, State.fetchInstr_of_none (by rwa [hmem, hpc]), hmem, hpc]
  | some o => rw [State.fetchInstr_of_some ho, State.fetchInstr_of_some (by rwa [hmem, hpc]), hoperand]

/-! ### The step -/

/-- A step is the effect of the fetched instruction on the state whose `pc` is past the opcode. -/
theorem step_eq_fetch (s : State) :
    step s = andThen s.fetchInstr fun i => .next (effect i (s.advance 1#16)) := by
  simp only [step, cycle_eq, State.fetchInstr, ← exec_eq]
  cases decodeOpcode (s.mem.get s.pc.toNat) <;> rfl

theorem step_of_fetchInstr {s : State} {i : Instr} (h : s.fetchInstr = .ok i) :
    step s = .next (effect i (s.advance 1#16)) := by
  rw [step_eq_fetch, h, andThen_ok]

/-- A step answers a next state exactly when it fetches an instruction, and then that one's effect. -/
theorem step_eq_next_iff {s s' : State} :
    step s = .next s' ↔ ∃ i, s.fetchInstr = .ok i ∧ s' = effect i (s.advance 1#16) := by
  rw [step_eq_fetch]
  cases s.fetchInstr <;> simp [eq_comm]

/-- The faults of a step are those of fetching: no instruction's meaning raises one. -/
theorem step_eq_fault_iff {s : State} {f : Fault} : step s = .fault f ↔ s.fetchInstr = .error f := by
  rw [step_eq_fetch]
  cases s.fetchInstr <;> simp

/-- Settles O11: the step is one invocation of the selected operation, and a host's move keeps the
outcome of its own. -/
theorem dispatchInvokesTheSelectedOperation : Obligations.DispatchInvokesTheSelectedOperation := by
  refine ⟨fun s o ho => ?_, fun s o s' h => ?_, fun s o f h => ?_⟩
  · rw [step, cycle_eq, ho]
    rfl
  · exact congrArg (Session.record ⟨s, none⟩) h
  · exact congrArg (Session.record ⟨s, none⟩) h

/-! ### Faults -/

/-- Reading the operand of LD A,(nn) faults with `pc` at 0xFFFF (R151). -/
theorem State.readOperand_ldANn_top {s : State} (h : s.pc = 0xFFFF#16) :
    s.readOperand .ldANn = .error (.busFault 65536) := by
  rw [State.readOperand, State.readPair_eq, h]
  rfl

theorem State.readOperand_ldANn {s : State} (h : s.pc.toNat + 1 < capacity) :
    s.readOperand .ldANn =
      .ok (.ldANn (beWord (s.mem.get s.pc.toNat) (s.mem.get (s.pc.toNat + 1)))) := by
  rw [State.readOperand, State.readPair_eq, if_pos h]

/-- The two ways a fetch can fault (R169). -/
theorem State.fetchInstr_eq_error_iff {s : State} {f : Fault} :
    s.fetchInstr = .error f ↔
      (decodeOpcode (s.mem.get s.pc.toNat) = none ∧
        f = .unimplementedOpcode (s.mem.get s.pc.toNat) s.pc) ∨
      (s.mem.get s.pc.toNat = 0xFA#8 ∧ s.pc = 0xFFFE#16 ∧ f = .busFault 65536) := by
  constructor
  · intro h
    rw [← step_eq_fault_iff] at h
    obtain ⟨ho, hs⟩ | ⟨ho, hpc, hs⟩ | ⟨i, -, -, hs⟩ := step_cases s
    · cases hs.symm.trans h
      exact .inl ⟨ho, rfl⟩
    · cases hs.symm.trans h
      exact .inr ⟨decodeOpcode_eq_some_iff.mp ho, hpc, rfl⟩
    · rw [exec_eq] at hs
      cases hs.symm.trans h
  · rintro (⟨ho, rfl⟩ | ⟨hop, hpc, rfl⟩)
    · exact State.fetchInstr_of_none ho
    · rw [State.fetchInstr_of_opcode (o := .ldANn) hop]
      apply State.readOperand_ldANn_top
      rw [State.advance_pc, hpc]
      rfl

/-- Settles O13: a step faults as its fetch does, and neither part of it is ever refused. -/
theorem stepFaultsExactlyWhenListed : Obligations.StepFaultsExactlyWhenListed := by
  refine ⟨fun s f => ?_, fun s r h => ?_⟩
  · rw [step_eq_fault_iff, State.fetchInstr_eq_error_iff]
  · cases hi : s.fetchInstr with
    | error f => cases (step_eq_fault_iff.mpr hi).symm.trans h
    | ok i => cases (step_of_fetchInstr hi).symm.trans h

/-- A state is not safe to step exactly when the fetch answers a fault. -/
theorem State.stepSafe_eq_false_iff (s : State) :
    s.stepSafe = false ↔ ∃ f, s.fetchInstr = .error f := by
  simp only [State.fetchInstr_eq_error_iff, exists_or]
  cases ho : decodeOpcode (s.mem.get s.pc.toNat) with
  | none => simp [State.stepSafe, ho]
  | some o =>
    have hld : s.mem.get s.pc.toNat = 0xFA#8 ↔ o = .ldANn := by
      rw [show 0xFA#8 = Operation.ldANn.opcode from rfl, ← decodeOpcode_eq_some_iff, ho,
        Option.some_inj]
    simp [State.stepSafe, ho, hld]

/-- Settles O12: not safe is that the fetch faults, and what is fetched always completes. -/
theorem safeStepsAreTheOnesThatComplete : Obligations.SafeStepsAreTheOnesThatComplete := by
  intro s
  rw [← Bool.not_eq_false, State.stepSafe_eq_false_iff]
  cases hi : s.fetchInstr with
  | error f => simp [step_eq_fault_iff.mpr hi]
  | ok i => simp [step_of_fetchInstr hi]

/-! ### The step of each operation that is singled out -/

/-- The step whose opcode byte is NOP's. -/
theorem step_of_nop {s : State} (h : s.mem.get s.pc.toNat = 0x00#8) :
    step s = .next { s with pc := s.pc + 1#16, m := 1, t := 4 } :=
  step_of_fetchInstr (State.fetchInstr_of_opcode (o := .nop) h)

/-- Settles O17: the equation of the instruction, and the step that fetches it. -/
theorem nopOnlyWritesItsCost : Obligations.NopOnlyWritesItsCost :=
  ⟨rfl, exec_nop_eq, fun _ => step_of_nop⟩

/-- Settles O26: anywhere but at 0xFFFE both operand bytes exist, and the word they make is the
address loaded from. -/
theorem loadStepReadsBigEndianOperand : Obligations.LoadStepReadsBigEndianOperand := by
  intro s hop hpc
  have hfetch := State.fetchInstr_of_opcode (o := .ldANn) hop
  rw [State.readOperand_ldANn ((add_one_succ_lt_capacity_iff s.pc).mpr hpc)] at hfetch
  have hpc3 : s.pc + 1#16 + 2#16 = s.pc + 3#16 := by bv_omega
  rw [step_of_fetchInstr hfetch, effect, beWord_toNat, State.advance_pc, hpc3]
  rfl

/-- Settles O27: with `pc` at 0xFFFF the operand read faults, the step from 0xFFFE comes to that, and
the step from 0xFFFF reads its operand at 0 and 1. -/
theorem loadOperandOffTheTopFaults : Obligations.LoadOperandOffTheTopFaults := by
  refine ⟨fun s hpc => ?_, fun s hpc hop => ?_, fun s hpc hop => ?_⟩
  · rw [invoke, State.readOperand_ldANn_top hpc, andThen_error]
  · rw [step_eq_fault_iff, State.fetchInstr_eq_error_iff]
    exact .inr ⟨by rw [hpc]; exact hop, hpc, rfl⟩
  · have hstep := loadStepReadsBigEndianOperand s (by rw [hpc]; exact hop) (by rw [hpc]; decide)
    rw [hpc] at hstep
    exact ⟨_, hstep, rfl, rfl⟩

/-! ### Control flow, costs and runs of NOPs -/

/-- Only LD A,(nn) moves `pc`, past its operand. -/
theorem effect_pc (i : Instr) (s : State) :
    (effect i s).pc = if i.operation = .ldANn then s.pc + 2#16 else s.pc := by
  cases i <;> rfl

/-- Settles O14: one for the opcode, and two more where the instruction is LD A,(nn). -/
theorem controlFlowIsLinear : Obligations.ControlFlowIsLinear := by
  intro s s' h
  obtain ⟨i, hi, rfl⟩ := step_eq_next_iff.mp h
  have hpc3 : s.pc + 1#16 + 2#16 = s.pc + 3#16 := by bv_omega
  have hld : i.operation.opcode = 0xFA#8 ↔ i.operation = .ldANn := by
    cases i <;> simp [Instr.operation, Operation.opcode]
  rw [effect_pc, State.opcode_of_fetchInstr hi, State.advance_pc, hpc3]
  simp only [hld]
  split <;> rfl

/-- Settles O49: the host's step move records the fault beside the state it began in. -/
theorem faultingStepWritesNothing : Obligations.FaultingStepWritesNothing :=
  fun s _ h => congrArg (Session.record ⟨s, none⟩) h

/-- Settles O15: by the equation of each instruction; Reset writes zeros, and a faulting step leaves
its state. -/
theorem costsAreTheTable : Obligations.CostsAreTheTable := by
  refine ⟨fun s nn => ⟨⟨_, exec_nop_eq s, rfl, rfl⟩, ⟨_, exec_addAE_eq s, rfl, rfl⟩,
    ⟨_, exec_cpB_eq s, rfl, rfl⟩, ⟨_, exec_pushBC_eq s, rfl, rfl⟩, ⟨_, exec_popHL_eq s, rfl, rfl⟩,
    ⟨_, exec_ldANn_eq nn s, rfl, rfl⟩⟩, fun _ => ⟨rfl, rfl⟩, fun s f h => ?_⟩
  rw [faultingStepWritesNothing s f h]
  exact ⟨rfl, rfl⟩

/-- A step in memory that lists nothing is a NOP's. -/
theorem step_of_mem_nil {s : State} (h : s.mem = []) :
    step s = .next { s with pc := s.pc + 1#16, m := 1, t := 4 } :=
  step_of_nop (by rw [h]; rfl)

/-- Settles O16, by induction on the number of steps after the first. -/
theorem emptyMemoryIsARunOfNops : Obligations.EmptyMemoryIsARunOfNops := by
  intro s n hmem
  rw [completes_succ]
  refine ⟨_, step_of_mem_nil hmem, ?_⟩
  induction n generalizing s with
  | zero => exact (completes_zero _ _).mpr rfl
  | succ n ih =>
    have hpc : s.pc + 1#16 + BitVec.ofNat 16 (n + 1) = s.pc + BitVec.ofNat 16 (n + 1 + 1) := by
      rw [BitVec.add_assoc, ← BitVec.ofNat_add, Nat.add_comm 1]
    rw [completes_succ]
    have hrest := ih { s with pc := s.pc + 1#16, m := 1, t := 4 } hmem
    rw [← hpc]
    exact ⟨_, step_of_mem_nil hmem, hrest⟩

end Sys2Proof.Machine
end

section
/-! PROOFS. Fetching is decoding the bytes at `pc`, and a placed opcode-table word is what is fetched
(spec/30_encoding.md section 1, spec/40_instruction_cycle.md section 1). -/

namespace Sys2Proof.Machine

/-! ### The bytes at `pc` -/

/-- The addresses of the opcode and of the first operand byte always exist. -/
theorem State.instrBytes_eq (s : State) :
    s.instrBytes = s.mem.get s.pc.toNat :: s.mem.get (s.pc + 1#16).toNat ::
      (if (s.pc + 1#16).toNat + 1 < 65536 then [s.mem.get ((s.pc + 1#16).toNat + 1)] else []) := by
  simp only [State.instrBytes, State.instrAddresses, List.filter_cons, List.filter_nil,
    toNat_lt_capacity, decide_true, if_true, decide_eq_true_eq]
  split_ifs <;> rfl

/-- The answer of a fetch at `pc` whose bytes decode as given (R104, R151). -/
def fetchOfDecode (pc : Word) : Except DecodeError (Instr × List Byte) → Except Fault Instr
  | .ok (i, _) => .ok i
  | .error (.unmapped op) => .error (.unimplementedOpcode op pc)
  | .error .truncated => .error (.busFault 65536)

/-- Fetching decodes the bytes at `pc`. -/
theorem State.fetchInstr_eq_decode (s : State) :
    s.fetchInstr = fetchOfDecode s.pc (decode s.instrBytes) := by
  rw [State.instrBytes_eq]
  cases ho : decodeOpcode (s.mem.get s.pc.toNat) with
  | none =>
    rw [State.fetchInstr_of_none ho, decode_eq_unmapped_iff.mpr ho]
    rfl
  | some o =>
    rw [State.fetchInstr_of_some ho]
    simp only [decode, ho]
    cases o with
    | ldANn =>
      by_cases hlast : (s.pc + 1#16).toNat + 1 < capacity
      · rw [State.readOperand_ldANn hlast, if_pos hlast]
        rfl
      · have hpc : s.pc = 0xFFFE#16 := by
          rwa [add_one_succ_lt_capacity_iff, not_not] at hlast
        rw [State.readOperand_ldANn_top (by rw [State.advance_pc, hpc]; rfl), if_neg hlast]
        rfl
    | _ => rfl

/-- Every term is a well-formed instruction: the operand's type bounds it. -/
theorem wellFormed_eq_true (i : Instr) : i.wellFormed = true := by
  cases i with
  | ldANn nn => exact decide_eq_true (toNat_lt_capacity nn)
  | _ => rfl

theorem step_of_decode_ok {s : State} {i : Instr} {rest : List Byte}
    (h : decode s.instrBytes = .ok (i, rest)) : step s = exec i (s.setPc (s.pc + 1#16)) := by
  rw [exec_eq]
  exact step_of_fetchInstr (by rw [State.fetchInstr_eq_decode, h]; rfl)

/-- Settles O9: what the bytes at `pc` decode to is what is fetched. -/
theorem stepRunsTheDecodedInstruction : Obligations.StepRunsTheDecodedInstruction :=
  fun s => ⟨s.instrBytes_eq, fun i _ h => ⟨wellFormed_eq_true i, step_of_decode_ok h⟩⟩

/-- Settles O10: each decoding error is one fault of the fetch. -/
theorem stepOnUndecodedBytesFaults : Obligations.StepOnUndecodedBytesFaults := by
  refine fun s => ⟨fun op h => ?_, fun h => ?_⟩
  · rw [step_eq_fault_iff, State.fetchInstr_eq_decode, h]
    rfl
  · rw [step_eq_fault_iff, State.fetchInstr_eq_decode, h]
    rfl

/-! ### A placed word -/

/-- A table word is padded to the bytes of the longest instruction. -/
theorem tableBytes_eq_cons (nbits w : Nat) :
    ∃ b0 b1 b2 tail, tableBytes nbits w = b0 :: b1 :: b2 :: tail := by
  have hlen : 3 ≤ (tableBytes nbits w).length := by
    simp only [tableBytes, List.length_append, List.length_map, List.length_range,
      List.length_replicate, maxLength]
    omega
  match htable : tableBytes nbits w with
  | b0 :: b1 :: b2 :: tail => exact ⟨b0, b1, b2, tail, rfl⟩
  | [] | [_] | [_, _] =>
    rw [htable] at hlen
    simp at hlen

/-- The number of the addresses of the longest instruction at `pc` that exist. -/
def State.fetchWidth (s : State) : Nat := if (s.pc + 1#16).toNat + 1 < capacity then 3 else 2

/-- A placed word is read back as far as its addresses exist: they are distinct. -/
theorem State.instrBytes_withFetchWord (s : State) (nbits w : Nat) :
    (s.withFetchWord nbits w).instrBytes = (tableBytes nbits w).take s.fetchWidth := by
  obtain ⟨b0, b1, b2, tail, htable⟩ := tableBytes_eq_cons nbits w
  have h01 : s.pc.toNat ≠ (s.pc + 1#16).toNat := by bv_omega
  have h02 : s.pc.toNat ≠ (s.pc + 1#16).toNat + 1 := by bv_omega
  have h12 : (s.pc + 1#16).toNat ≠ (s.pc + 1#16).toNat + 1 := by omega
  rw [State.instrBytes_eq, State.withFetchWord, htable, State.instrAddresses, State.fetchWidth]
  simp only [Memory.place, List.zip_cons_cons, List.zip_nil_left, List.foldl_cons, List.foldl_nil,
    toNat_lt_capacity, if_true]
  split_ifs <;>
    simp only [Memory.get_set, h01, h02, h12, if_true, if_false, List.take_succ_cons, List.take_zero]

/-- Of a well-placed instruction every byte's address exists. -/
theorem length_le_fetchWidth {i : Instr} {s : State} (h : i.wellPlaced s.pc = true) :
    i.length ≤ s.fetchWidth := by
  rw [State.fetchWidth]
  cases i with
  | ldANn nn =>
    rw [if_pos (of_decide_eq_true h)]
    exact le_rfl
  | _ => split_ifs <;> simp [Instr.length, Instr.operation, Operation.operandBytes]

/-- Settles O8: the word's bytes begin with the instruction's encoding, all of which is placed where
it can be read back, so that the bytes at `pc` decode to the instruction. -/
theorem placedWordIsRunNext : Obligations.PlacedWordIsRunNext := by
  intro s nbits w i hword hplaced
  obtain ⟨rest, hrest⟩ : ∃ rest, tableBytes nbits w = encode i ++ rest := by
    rw [decodeTableWord] at hword
    split at hword
    · rename_i hdecode
      cases hword
      exact ⟨_, decode_eq_ok_iff.mp hdecode⟩
    · cases hword
  have hlen : (encode i).length ≤ s.fetchWidth := by
    rw [encode_length]
    exact length_le_fetchWidth hplaced
  have hbytes : (s.withFetchWord nbits w).instrBytes =
      encode i ++ rest.take (s.fetchWidth - (encode i).length) := by
    rw [State.instrBytes_withFetchWord, hrest, List.take_append, List.take_of_length_le hlen]
  exact step_of_decode_ok (decode_eq_ok_iff.mpr hbytes)

end Sys2Proof.Machine
end

section
/-! PROOFS. The invariant: every step and every host move keeps it, and the host sets up exactly the
states that meet it (spec/70_reset_and_hazards.md sections 3 and 4). -/

namespace Sys2Proof.Machine

/-! ### Steps -/

/-- The two writes of a push are to addresses of the array. -/
theorem Memory.wf_push {m : Memory} (hm : m.wf = true) (sp : Word) (hi lo : Byte) :
    ((m.set (sp - 1#16).toNat hi).set (sp - 2#16).toNat lo).wf = true :=
  Memory.wf_set _ (Memory.wf_set _ hm (toNat_lt_capacity _)) (toNat_lt_capacity _)

/-- An instruction writes `f` with a flag byte or not at all, memory at addresses of the array, and
its cost. -/
theorem effect_inv (i : Instr) {s : State} (hs : s.Inv) : (effect i s).Inv := by
  obtain ⟨hf, -, hmem⟩ := hs
  cases i with
  | nop => exact ⟨hf, rfl, hmem⟩
  | addAE => exact ⟨Flags.lowNibble_toByte _, rfl, hmem⟩
  | cpB => exact ⟨Flags.lowNibble_toByte _, rfl, hmem⟩
  | pushBC => exact ⟨hf, rfl, Memory.wf_push hmem _ _ _⟩
  | popHL => exact ⟨hf, rfl, hmem⟩
  | ldANn nn => exact ⟨hf, rfl, hmem⟩

/-- Settles O52: advancing `pc` touches nothing of the invariant, and the instruction keeps it. -/
theorem stepKeepsTheInvariant : Obligations.StepKeepsTheInvariant := by
  intro s s' hs h
  obtain ⟨i, -, rfl⟩ := step_eq_next_iff.mp h
  have hadvance : (s.advance 1#16).Inv := hs
  exact effect_inv i hadvance

/-- The cost of an instruction is written over both counters. -/
theorem effect_counters (i : Instr) (s : State) :
    (effect i s).t = 4 * (effect i s).m ∧
      ((effect i s).m = 1 ∨ (effect i s).m = 3 ∨ (effect i s).m = 4) := by
  cases i <;> simp [effect]

/-- Settles O53: a step that answers ends in an instruction, which writes its cost. -/
theorem countersAgreeAfterEveryStep : Obligations.CountersAgreeAfterEveryStep := by
  intro s s' h
  obtain ⟨i, -, rfl⟩ := step_eq_next_iff.mp h
  exact effect_counters i _

/-! ### Host moves -/

theorem invoke_keeps_inv {o : Operation} {s s' : State} (hs : s.Inv)
    (h : invoke o s = .next s') : s'.Inv := by
  obtain ⟨i, -, hexec⟩ := andThen_eq_next h
  rw [exec_eq_next_iff.mp hexec]
  exact effect_inv i hs

theorem State.resetRegisters_inv {s : State} (hs : s.Inv) : s.resetRegisters.Inv := by
  obtain ⟨-, -, hmem⟩ := hs
  exact ⟨rfl, rfl, hmem⟩

/-- Keeping an outcome keeps the invariant if the next state, where there is one, meets it. -/
theorem Session.record_keeps_inv {x : Session} {r : Result} (hx : x.state.Inv)
    (hr : ∀ s', r = .next s' → s'.Inv) : (x.record r).state.Inv := by
  cases r with
  | next s' => exact hr s' rfl
  | fault f => exact hx
  | refused r => exact hx

/-- A machine that has stopped makes no move (R165). -/
theorem Session.move_of_stop {x : Session} {stop : Stop} (h : x.stop = some stop) (mv : HostMove) :
    x.move mv = x := by
  unfold Session.move
  rw [h]

@[simp] theorem Session.move_step (s : State) :
    (Session.mk s none).move .step = (Session.mk s none).record (step s) := rfl

@[simp] theorem Session.move_reset (s : State) :
    (Session.mk s none).move .reset = ⟨s.resetRegisters, none⟩ := rfl

@[simp] theorem Session.move_invoke (s : State) (o : Operation) :
    (Session.mk s none).move (.invoke o) = (Session.mk s none).record (invoke o s) := rfl

theorem Session.move_keeps_inv {x : Session} (hx : x.state.Inv) (mv : HostMove) :
    (x.move mv).state.Inv := by
  obtain ⟨s, stop⟩ := x
  cases stop with
  | some stop => rwa [Session.move_of_stop rfl]
  | none =>
    cases mv with
    | step => exact Session.record_keeps_inv hx fun s' => stepKeepsTheInvariant s s' hx
    | reset => exact State.resetRegisters_inv hx
    | invoke o => exact Session.record_keeps_inv hx fun _ => invoke_keeps_inv hx

@[simp] theorem Session.moves_nil (x : Session) : x.moves [] = x := rfl

@[simp] theorem Session.moves_cons (x : Session) (mv : HostMove) (rest : List HostMove) :
    x.moves (mv :: rest) = (x.move mv).moves rest := rfl

/-- Settles O54, by induction on the moves. -/
theorem hostMovesKeepTheInvariant : Obligations.HostMovesKeepTheInvariant := by
  intro x moves hx
  induction moves generalizing x with
  | nil => exact hx
  | cons mv rest ih => exact ih (x.move mv) (Session.move_keeps_inv hx mv)

/-! ### Set-up -/

/-- Settles O51. -/
theorem resetMeetsTheInvariant : Obligations.ResetMeetsTheInvariant := ⟨rfl, rfl, rfl⟩

theorem State.inv_of_writeByte {s s' : State} {addr : Nat} {v : Byte} (hs : s.Inv)
    (h : s.writeByte addr v = .ok s') : s'.Inv := by
  obtain ⟨hf, hc, hmem⟩ := hs
  obtain hin | hout := Nat.lt_or_ge addr capacity
  · cases (s.writeByte_of_lt v hin).symm.trans h
    exact ⟨hf, hc, Memory.wf_set v hmem hin⟩
  · cases (s.writeByte_of_ge v hout).symm.trans h

theorem State.inv_of_writeWord {s s' : State} {w : Nat} {v : Word} (hs : s.Inv)
    (h : s.writeWord w v = .ok s') : s'.Inv := by
  rw [State.writeWord, State.writePair] at h
  cases h1 : s.writeByte (2 * w) (highByte v) with
  | error f => simp only [h1, reduceCtorEq] at h
  | ok s1 =>
    simp only [h1] at h
    exact State.inv_of_writeByte (State.inv_of_writeByte hs h1) h

/-- No set-up move leaves the legal states: the flags come one by one and the counters as one. -/
theorem State.setup_keeps_inv {s s' : State} {x : HostSetup} (hs : s.Inv)
    (h : s.setup x = .ok s') : s'.Inv := by
  obtain ⟨hf, hc, hmem⟩ := hs
  cases x with
  | writeByte addr v => exact State.inv_of_writeByte ⟨hf, hc, hmem⟩ h
  | writeWord w v => exact State.inv_of_writeWord ⟨hf, hc, hmem⟩ h
  | setReg r v => cases h; cases r <;> exact ⟨hf, hc, hmem⟩
  | setFlags x => cases h; exact ⟨Flags.lowNibble_toByte x, hc, hmem⟩
  | setPc v => cases h; exact ⟨hf, hc, hmem⟩
  | setSp v => cases h; exact ⟨hf, hc, hmem⟩
  | setCounters m => cases h; exact ⟨hf, rfl, hmem⟩

@[simp] theorem State.setupAll_nil (s : State) : s.setupAll [] = .ok s := rfl

theorem State.setupAll_cons_of_ok {s s' : State} {x : HostSetup} (h : s.setup x = .ok s')
    (rest : List HostSetup) : s.setupAll (x :: rest) = s'.setupAll rest := by
  rw [State.setupAll, h]

theorem State.setupAll_cons_of_error {s : State} {x : HostSetup} {f : Fault}
    (h : s.setup x = .error f) (rest : List HostSetup) : s.setupAll (x :: rest) = .error f := by
  rw [State.setupAll, h]

theorem State.setupAll_keeps_inv {s s' : State} {xs : List HostSetup} (hs : s.Inv)
    (h : s.setupAll xs = .ok s') : s'.Inv := by
  induction xs generalizing s with
  | nil => cases h; exact hs
  | cons x rest ih =>
    cases hx : s.setup x with
    | error f => cases (State.setupAll_cons_of_error hx rest).symm.trans h
    | ok s1 =>
      rw [State.setupAll_cons_of_ok hx] at h
      exact ih (State.setup_keeps_inv hs hx) h

/-- Some set-up moves lead from one state to the other. -/
def State.SetsUp (s s' : State) : Prop := ∃ xs, s.setupAll xs = .ok s'

theorem State.SetsUp.refl (s : State) : s.SetsUp s := ⟨[], rfl⟩

/-- One move, and then whatever can be set up from there. -/
theorem State.SetsUp.head {s s1 s' : State} (x : HostSetup) (hx : s.setup x = .ok s1)
    (h : s1.SetsUp s') : s.SetsUp s' := by
  obtain ⟨xs, hxs⟩ := h
  exact ⟨x :: xs, by rw [State.setupAll_cons_of_ok hx, hxs]⟩

theorem State.SetsUp.trans {s s1 s' : State} (h : s.SetsUp s1) (h1 : s1.SetsUp s') :
    s.SetsUp s' := by
  obtain ⟨xs, hxs⟩ := h
  induction xs generalizing s with
  | nil => cases hxs; exact h1
  | cons x rest ih =>
    cases hx : s.setup x with
    | error f => cases (State.setupAll_cons_of_error hx rest).symm.trans hxs
    | ok s2 =>
      rw [State.setupAll_cons_of_ok hx] at hxs
      exact .head x hx (ih hxs)

/-- Setting a cell below every listed address puts it in front. -/
theorem Memory.set_eq_cons {m : Memory} {cell : Host.Cell} (hv : cell.2 ≠ 0#8)
    (hlt : ∀ next ∈ m, cell.1 < next.1) : m.set cell.1 cell.2 = cell :: m := by
  have herase : m.erase cell.1 = m := by
    refine List.filter_eq_self.mpr fun next hnext => ?_
    have := hlt next hnext
    simp only [bne_iff_ne]
    omega
  have hlisted : cell.2 ≠ unlistedByte := hv
  rw [Memory.set, if_neg hlisted, herase]
  cases m with
  | nil => rfl
  | cons next rest => rw [Memory.insert, if_pos (hlt next (by simp))]

/-- Every canonical memory can be set up, its cells written from the highest address down. -/
theorem State.setsUp_mem (s : State) {m : Memory} (hm : m.wf = true) :
    ({ s with mem := [] } : State).SetsUp { s with mem := m } := by
  induction m with
  | nil => exact .refl _
  | cons cell rest ih =>
    obtain ⟨⟨haddr, hv⟩, hlt, hrest⟩ := (Memory.wf_cons _ _).mp hm
    refine (ih hrest).trans (.head (.writeByte cell.1 cell.2) (State.writeByte_of_lt _ _ haddr) ?_)
    rw [Memory.set_eq_cons hv hlt]
    exact .refl _

/-- A byte whose low nibble is zero is a byte of flags. -/
theorem Flags.toByte_ofByte {f : Byte} (h : lowNibble f = 0) : (Flags.ofByte f).toByte = f := by
  apply BitVec.eq_of_getLsbD_eq
  intro k hk
  by_cases hlow : k < 4
  · rw [Flags.toByte_low_bits _ hlow, getLsbD_of_lowNibble_eq_zero h hlow]
  · obtain rfl | rfl | rfl | rfl : k = 4 ∨ k = 5 ∨ k = 6 ∨ k = 7 := by omega
    · exact Flags.toByte_bit_c _
    · exact Flags.toByte_bit_h _
    · exact Flags.toByte_bit_n _
    · exact Flags.toByte_bit_z _

/-- Beside any memory, every register, flag and pair of agreeing counters can be set up. -/
theorem State.setsUp_registers (s u : State) (x : Flags) :
    u.SetsUp { s with f := x.toByte, t := 4 * s.m, mem := u.mem } :=
  ⟨[.setReg .a s.a, .setReg .b s.b, .setReg .c s.c, .setReg .d s.d, .setReg .e s.e, .setReg .h s.h,
    .setReg .l s.l, .setFlags x, .setPc s.pc, .setSp s.sp, .setCounters s.m], by
    simp only [State.setupAll, State.setup, State.setReg, State.setF, State.setPc, State.setSp,
      State.charge]⟩

/-- Every legal state can be set up from construction: memory first, then everything else. -/
theorem State.setsUp_of_inv {s : State} (hs : s.Inv) : State.reset.SetsUp s := by
  obtain ⟨hf, hc, hmem⟩ := hs
  have hregs := State.setsUp_registers s { State.reset with mem := s.mem } (Flags.ofByte s.f)
  rw [Flags.toByte_ofByte hf, ← hc] at hregs
  exact (State.setsUp_mem State.reset hmem).trans hregs

/-- Settles O55: every move keeps the invariant from the reset state on, and every legal state is
written out by moves. -/
theorem setupReachesExactlyTheLegalStates : Obligations.SetupReachesExactlyTheLegalStates :=
  fun _ => ⟨State.setsUp_of_inv, fun ⟨_, h⟩ => State.setupAll_keeps_inv resetMeetsTheInvariant h⟩

/-! ### A legal state is what it reads as -/

/-- A canonical memory lists no address outside the array. -/
theorem Memory.get_eq_zero_of_ge {m : Memory} (hm : m.wf = true) {x : Nat} (hx : capacity ≤ x) :
    m.get x = 0#8 := by
  induction m with
  | nil => rfl
  | cons cell rest ih =>
    obtain ⟨⟨haddr, -⟩, -, hrest⟩ := (Memory.wf_cons _ _).mp hm
    rw [Memory.get_cons, if_neg (by omega), ih hrest]

/-- Settles O56: outside the array both memories read zero, and canonical lists that read alike are
equal. -/
theorem statesAreWhatTheyReadAs : Obligations.StatesAreWhatTheyReadAs := by
  intro s s' ⟨_, _, hmem⟩ ⟨_, _, hmem'⟩ hregs hread
  have hget (x : Nat) : s.mem.get x = s'.mem.get x := by
    obtain hin | hout := Nat.lt_or_ge x capacity
    · have hx := hread x hin
      rw [State.readByte_of_lt _ hin, State.readByte_of_lt _ hin] at hx
      exact Except.ok.inj hx
    · rw [Memory.get_eq_zero_of_ge hmem hout, Memory.get_eq_zero_of_ge hmem' hout]
  rw [hregs, ← Memory.eq_of_get_eq hmem hmem' hget]

end Sys2Proof.Machine
end

section
/-! PROOFS. What a step leaves unchanged, and the registers, flags and counters it never reads
(spec/10_state.md sections 2, 5 and 6). -/

namespace Sys2Proof.Machine

/-! ### Frames -/

/-- Only PUSH BC writes memory, and only its two stack bytes. -/
theorem effect_mem_get (i : Instr) (s : State) {x : Nat}
    (hx : i = .pushBC → x ≠ (s.sp - 1#16).toNat ∧ x ≠ (s.sp - 2#16).toNat) :
    (effect i s).mem.get x = s.mem.get x := by
  cases i with
  | pushBC => exact Memory.get_push_of_ne _ _ _ (hx rfl).1 (hx rfl).2
  | _ => rfl

/-- Settles O33: the effect of each instruction names the fields it writes. -/
theorem frameOfEveryInstruction : Obligations.FrameOfEveryInstruction := by
  intro i s s' h
  obtain rfl := exec_eq_next_iff.mp h
  have hmem := fun x => effect_mem_get i s (x := x)
  cases i <;> exact ⟨rfl, rfl, rfl, rfl, by simp [effect], by simp [effect], by simp [effect],
    by simp [effect], by simp [effect], hmem⟩

theorem step_keeps_bcde {s s' : State} (h : step s = .next s') :
    s'.b = s.b ∧ s'.c = s.c ∧ s'.d = s.d ∧ s'.e = s.e := by
  obtain ⟨i, -, rfl⟩ := step_eq_next_iff.mp h
  obtain ⟨hb, hc, hd, he, -⟩ := frameOfEveryInstruction i (s.advance 1#16) _ (exec_eq _ _)
  exact ⟨hb, hc, hd, he⟩

/-- Settles O34, by induction on the number of steps. -/
theorem runsNeverWriteBCDE : Obligations.RunsNeverWriteBCDE := by
  intro n s s' h
  induction n generalizing s with
  | zero =>
    obtain rfl := (completes_zero s s').mp h
    exact ⟨rfl, rfl, rfl, rfl⟩
  | succ n ih =>
    obtain ⟨s1, hstep, hrest⟩ := (completes_succ n s s').mp h
    obtain ⟨hb, hc, hd, he⟩ := step_keeps_bcde hstep
    obtain ⟨hb', hc', hd', he'⟩ := ih s1 hrest
    exact ⟨hb'.trans hb, hc'.trans hc, hd'.trans hd, he'.trans he⟩

/-! ### What is never read -/

/-- Two states with the same `pc` and memory fault alike. -/
theorem step_fault_congr {s u : State} (hpc : u.pc = s.pc) (hmem : u.mem = s.mem) (r : Fault) :
    step s = .fault r ↔ step u = .fault r := by
  rw [step_eq_fault_iff, step_eq_fault_iff, State.fetchInstr_congr hpc hmem]

/-- Two states with the same `pc` and memory run the same instruction. -/
theorem step_next_congr {s u s' : State} (hpc : u.pc = s.pc) (hmem : u.mem = s.mem)
    (h : step s = .next s') :
    ∃ i, s.mem.get s.pc.toNat = i.operation.opcode ∧ s' = effect i (s.advance 1#16) ∧
      step u = .next (effect i (u.advance 1#16)) := by
  obtain ⟨i, hi, hs'⟩ := step_eq_next_iff.mp h
  exact ⟨i, State.opcode_of_fetchInstr hi, hs',
    step_of_fetchInstr ((State.fetchInstr_congr hpc hmem).trans hi)⟩

/-- Every instruction writes both counters from its cost alone. -/
theorem effect_of_other_counters (i : Instr) (s : State) (m t : Nat) :
    effect i { s with m := m, t := t } = effect i s := by
  cases i <;> rfl

/-- Settles O31: the same instruction is fetched, and it has the same effect. -/
theorem countersAreNeverRead : Obligations.CountersAreNeverRead := by
  intro s m t
  have hfetch : ({ s with m := m, t := t } : State).fetchInstr = s.fetchInstr :=
    State.fetchInstr_congr rfl rfl
  have heffect (i : Instr) : effect i (({ s with m := m, t := t } : State).advance 1#16) =
      effect i (s.advance 1#16) := effect_of_other_counters i (s.advance 1#16) m t
  simp only [step_eq_fetch, hfetch, heffect]

/-- Every instruction writes `f` without reading it or leaves it alone. -/
theorem effect_of_other_flags (i : Instr) (s : State) (f : Byte) :
    effect i { s with f := f } = { effect i s with
      f := if i.operation.opcode = 0x83#8 ∨ i.operation.opcode = 0xB8#8 then (effect i s).f
        else f } := by
  cases i <;> rfl

/-- Settles O30: the same instruction is fetched, and its effect does not depend on `f`. -/
theorem flagsAreNeverRead : Obligations.FlagsAreNeverRead := by
  refine fun s f => ⟨step_fault_congr rfl rfl, fun s' h => ?_⟩
  obtain ⟨i, hop, rfl, hstep⟩ := step_next_congr (s := s) (u := { s with f := f }) rfl rfl h
  rw [hstep, hop]
  exact congrArg _ (effect_of_other_flags i (s.advance 1#16) f)

/-- Every instruction reads none of the three registers, and only POP HL writes two of them. -/
theorem effect_of_other_dhl (i : Instr) (s : State) (d h l : Byte) :
    effect i { s with d := d, h := h, l := l } = { effect i s with
      d := d
      h := if i.operation.opcode = 0xE1#8 then (effect i s).h else h
      l := if i.operation.opcode = 0xE1#8 then (effect i s).l else l } := by
  cases i <;> rfl

/-- Settles O32: the same instruction is fetched, and its effect does not depend on the three. -/
theorem unreadRegistersDoNotMatter : Obligations.UnreadRegistersDoNotMatter := by
  refine fun s d h l => ⟨step_fault_congr rfl rfl, fun s' hs => ?_⟩
  obtain ⟨i, hop, rfl, hstep⟩ :=
    step_next_congr (s := s) (u := { s with d := d, h := h, l := l }) rfl rfl hs
  rw [hstep, hop]
  exact congrArg _ (effect_of_other_dhl i (s.advance 1#16) d h l)

end Sys2Proof.Machine
end

section
/-! PROOFS. The accesses of a step are all it reads and writes of memory (spec/20_memory.md
section 6). -/

namespace Sys2Proof.Machine

/-! ### The access table (R60) -/

theorem stepAccesses_of_opcode {s : State} {o : Operation} (h : s.mem.get s.pc.toNat = o.opcode) :
    stepAccesses s = ⟨.fetch, s.pc.toNat⟩ :: operationAccesses o (s.advance 1#16) :=
  stepAccesses_of_some (decodeOpcode_eq_some_iff.mpr h)

/-- LD A,(nn) whose operand can be read makes the two operand reads and the read at `nn`. -/
theorem operationAccesses_ldANn_of_ok {s : State} {nn : Word}
    (h : s.readPair s.pc.toNat = .ok nn) :
    operationAccesses .ldANn s =
      [⟨.read, s.pc.toNat⟩, ⟨.read, s.pc.toNat + 1⟩, ⟨.read, nn.toNat⟩] := by
  rw [operationAccesses, h]
  rfl

/-- LD A,(nn) whose operand read faults makes no read after it. -/
theorem operationAccesses_ldANn_of_error {s : State} {f : Fault}
    (h : s.readPair s.pc.toNat = .error f) :
    operationAccesses .ldANn s = [⟨.read, s.pc.toNat⟩, ⟨.read, s.pc.toNat + 1⟩] := by
  rw [operationAccesses, h]
  rfl

/-- Settles O57, by the operation that the opcode byte selects; for LD A,(nn) by whether the second
operand byte exists. -/
theorem stepAccessesAreTheTable : Obligations.StepAccessesAreTheTable := by
  refine fun s => ⟨?_, fun hop => ?_,
    stepAccesses_of_opcode (o := .popHL), fun hop hpc => ?_, fun hop hpc => ?_⟩
  · rintro (h | h | h | h)
    · exact stepAccesses_of_opcode (o := .nop) h
    · exact stepAccesses_of_opcode (o := .addAE) h
    · exact stepAccesses_of_opcode (o := .cpB) h
    · exact stepAccesses_of_none h
  · rw [stepAccesses_of_opcode (o := .pushBC) hop]
    rfl
  · have hread := (s.advance 1#16).readPair_eq (s.pc + 1#16).toNat
    rw [if_pos ((add_one_succ_lt_capacity_iff s.pc).mpr hpc)] at hread
    rw [stepAccesses_of_opcode (o := .ldANn) hop, operationAccesses_ldANn_of_ok hread, beWord_toNat]
    rfl
  · have hread : (s.advance 1#16).readPair (s.advance 1#16).pc.toNat = .error (.busFault 65536) := by
      rw [State.readPair_eq, State.advance_pc, hpc]
      rfl
    rw [stepAccesses_of_opcode (o := .ldANn) hop, operationAccesses_ldANn_of_error hread,
      State.advance_pc, hpc]
    rfl

/-- Settles O35: an instruction writes memory only where it is PUSH BC, at its two write accesses. -/
theorem changedBytesAreWriteAccesses : Obligations.ChangedBytesAreWriteAccesses := by
  intro s s' x h hchanged
  obtain ⟨i, hi, rfl⟩ := step_eq_next_iff.mp h
  have hacc := stepAccesses_of_opcode (State.opcode_of_fetchInstr hi)
  by_contra hnot
  refine hchanged (effect_mem_get i (s.advance 1#16) ?_)
  rintro rfl
  rw [hacc] at hnot
  simpa [operationAccesses, Instr.operation] using hnot

/-! ### Other memory that agrees on the accesses -/

/-- `mem` reads as the memory of `s` does at every access of the step of `s` that exists. -/
def State.AgreesOnAccesses (s : State) (mem : Memory) : Prop :=
  ∀ x ∈ stepAccesses s, x.addr < 65536 → mem.get x.addr = s.mem.get x.addr

section
variable {s : State} {mem : Memory}

theorem State.AgreesOnAccesses.get_pc (h : s.AgreesOnAccesses mem) :
    mem.get s.pc.toNat = s.mem.get s.pc.toNat :=
  h ⟨.fetch, s.pc.toNat⟩ List.mem_cons_self (toNat_lt_capacity _)

/-- The accesses of the selected operation are among those of the step. -/
theorem State.AgreesOnAccesses.get_of_mem {o : Operation} (h : s.AgreesOnAccesses mem)
    (ho : s.mem.get s.pc.toNat = o.opcode) {x : Access}
    (hx : x ∈ operationAccesses o (s.advance 1#16)) (hin : x.addr < capacity) :
    mem.get x.addr = s.mem.get x.addr :=
  h x (stepAccesses_of_opcode ho ▸ List.mem_cons_of_mem _ hx) hin

/-- The operand of LD A,(nn) is read alike. -/
theorem State.AgreesOnAccesses.readPair_eq (h : s.AgreesOnAccesses mem)
    (ho : s.mem.get s.pc.toNat = Operation.ldANn.opcode) :
    (({ s with mem := mem } : State).advance 1#16).readPair (s.pc + 1#16).toNat =
      (s.advance 1#16).readPair (s.pc + 1#16).toNat := by
  have hhi := h.get_of_mem ho (x := ⟨.read, (s.pc + 1#16).toNat⟩) (by simp [operationAccesses])
    (toNat_lt_capacity _)
  have hlo := h.get_of_mem ho (x := ⟨.read, (s.pc + 1#16).toNat + 1⟩) (by simp [operationAccesses])
  simp only [State.readPair_eq, State.advance_mem]
  split
  · rename_i hin
    rw [hhi, hlo hin]
  · rfl

theorem State.AgreesOnAccesses.fetchInstr_eq (h : s.AgreesOnAccesses mem) :
    ({ s with mem := mem } : State).fetchInstr = s.fetchInstr := by
  have hpc := h.get_pc
  cases ho : decodeOpcode (s.mem.get s.pc.toNat) with
  | none =>
    rw [State.fetchInstr_of_none ho, State.fetchInstr_of_none (by simpa only [hpc] using ho)]
    simp only [hpc]
  | some o =>
    rw [State.fetchInstr_of_some ho, State.fetchInstr_of_some (by simpa only [hpc] using ho)]
    cases o with
    | ldANn =>
      simp only [State.readOperand, State.advance_pc,
        h.readPair_eq (decodeOpcode_eq_some_iff.mp ho)]
    | _ => rfl

theorem State.AgreesOnAccesses.stepAccesses_eq (h : s.AgreesOnAccesses mem) :
    stepAccesses { s with mem := mem } = stepAccesses s := by
  have hpc := h.get_pc
  cases ho : decodeOpcode (s.mem.get s.pc.toNat) with
  | none => rw [stepAccesses_of_none ho, stepAccesses_of_none (by simpa only [hpc] using ho)]
  | some o =>
    rw [stepAccesses_of_some ho, stepAccesses_of_some (by simpa only [hpc] using ho)]
    cases o with
    | ldANn =>
      simp only [operationAccesses, State.advance_pc, h.readPair_eq (decodeOpcode_eq_some_iff.mp ho)]
    | _ => rfl

/-- The stack bytes that POP HL reads. -/
theorem State.AgreesOnAccesses.get_popHL (h : s.AgreesOnAccesses mem)
    (ho : s.mem.get s.pc.toNat = Operation.popHL.opcode) :
    mem.get s.sp.toNat = s.mem.get s.sp.toNat ∧
      mem.get (s.sp + 1#16).toNat = s.mem.get (s.sp + 1#16).toNat :=
  ⟨h.get_of_mem ho (x := ⟨.read, s.sp.toNat⟩) (by simp [operationAccesses]) (toNat_lt_capacity _),
    h.get_of_mem ho (x := ⟨.read, (s.sp + 1#16).toNat⟩) (by simp [operationAccesses])
      (toNat_lt_capacity _)⟩

/-- The byte that LD A,(nn) loads. -/
theorem State.AgreesOnAccesses.get_ldANn {nn : Word} (h : s.AgreesOnAccesses mem)
    (hi : s.fetchInstr = .ok (.ldANn nn)) : mem.get nn.toNat = s.mem.get nn.toNat := by
  have ho : s.mem.get s.pc.toNat = Operation.ldANn.opcode := State.opcode_of_fetchInstr hi
  have hoperand : (s.advance 1#16).readPair (s.advance 1#16).pc.toNat = .ok nn := by
    rw [State.fetchInstr_of_opcode ho, State.readOperand] at hi
    split at hi
    · cases hi
    · cases hi; assumption
  refine h.get_of_mem ho (x := ⟨.read, nn.toNat⟩) ?_ (toNat_lt_capacity _)
  rw [operationAccesses_ldANn_of_ok hoperand]
  simp

end

/-- The registers an effect leaves depend on memory only through the stack bytes of POP HL and the
byte that LD A,(nn) loads. -/
theorem effect_of_other_mem {i : Instr} {s : State} {mem : Memory}
    (hpop : i = .popHL → mem.get s.sp.toNat = s.mem.get s.sp.toNat ∧
      mem.get (s.sp + 1#16).toNat = s.mem.get (s.sp + 1#16).toNat)
    (hload : ∀ nn, i = .ldANn nn → mem.get nn.toNat = s.mem.get nn.toNat) :
    effect i { s with mem := mem } =
      { effect i s with mem := (effect i { s with mem := mem }).mem } := by
  cases i with
  | popHL =>
    obtain ⟨hl, hh⟩ := hpop rfl
    simp only [effect, hl, hh]
  | ldANn nn => simp only [effect, hload nn rfl]
  | _ => rfl

/-- Where two memories read alike before an effect they do after it. -/
theorem effect_mem_congr (i : Instr) {s : State} {mem : Memory} {x : Nat}
    (h : mem.get x = s.mem.get x) :
    (effect i { s with mem := mem }).mem.get x = (effect i s).mem.get x := by
  cases i with
  | pushBC => simp only [effect, Memory.get_set, h]
  | _ => exact h

/-- Settles O36: the other memory gives the same fetch and the same accesses, and what the fetched
instruction then reads is among them. -/
theorem stepsReadOnlyTheirAccesses : Obligations.StepsReadOnlyTheirAccesses := by
  intro s mem hagree
  have h : s.AgreesOnAccesses mem := hagree
  refine ⟨h.stepAccesses_eq, fun r => ?_, fun s' hs => ?_⟩
  · rw [step_eq_fault_iff, step_eq_fault_iff, h.fetchInstr_eq]
  · obtain ⟨i, hi, rfl⟩ := step_eq_next_iff.mp hs
    have hop := State.opcode_of_fetchInstr hi
    refine ⟨_, step_of_fetchInstr (h.fetchInstr_eq.trans hi),
      effect_of_other_mem (s := s.advance 1#16) ?_ ?_,
      fun x hx => effect_mem_congr i (s := s.advance 1#16) hx⟩
    · rintro rfl
      exact h.get_popHL hop
    · rintro nn rfl
      exact h.get_ldANn hi

end Sys2Proof.Machine
end

section
/-! PROOFS. The 16-bit accessors, and the stack's bytes seen through them and through the fetch
(spec/20_memory.md sections 3, 6 and 8). -/

namespace Sys2Proof.Machine

/-! ### The word accessors, whose argument is an index (R54, R55) -/

/-- A word index in range names two bytes of the array. -/
theorem word_index_lt {w : Nat} (hw : w < 32768) : 2 * w + 1 < capacity := by
  simp only [capacity]
  omega

/-- A word index out of range names a byte outside the array. -/
theorem capacity_le_word_index {w : Nat} (hw : 32768 ≤ w) : capacity ≤ 2 * w := by
  simp only [capacity]
  omega

theorem State.readPair_of_ge (s : State) {addr : Nat} (h : capacity ≤ addr) :
    s.readPair addr = .error (.busFault addr) := by
  rw [State.readPair_eq, if_neg (by omega), if_neg (by omega)]

theorem State.readWord_of_ge (s : State) {w : Nat} (hw : 32768 ≤ w) :
    s.readWord w = .error (.busFault (2 * w)) :=
  s.readPair_of_ge (capacity_le_word_index hw)

theorem State.readWord_of_lt (s : State) {w : Nat} (hw : w < 32768) :
    s.readWord w = .ok (beWord (s.mem.get (2 * w)) (s.mem.get (2 * w + 1))) := by
  rw [State.readWord, State.readPair_eq, if_pos (word_index_lt hw)]

theorem State.writeWord_of_ge (s : State) {w : Nat} (v : Word) (hw : 32768 ≤ w) :
    s.writeWord w v = .error (.busFault (2 * w)) := by
  have hout := capacity_le_word_index hw
  rw [State.writeWord, State.writePair_eq, if_neg (by omega), if_neg (by omega)]

theorem State.writeWord_of_lt (s : State) {w : Nat} (v : Word) (hw : w < 32768) :
    s.writeWord w v =
      .ok { s with mem := (s.mem.set (2 * w) (highByte v)).set (2 * w + 1) (lowByte v) } := by
  rw [State.writeWord, State.writePair_eq, if_pos (word_index_lt hw)]

/-- The higher-placed byte of a word write does not touch the lower-placed one. -/
theorem Memory.get_setPair_first (m : Memory) (addr : Nat) (hi lo : Byte) :
    ((m.set addr hi).set (addr + 1) lo).get addr = hi := by
  rw [Memory.get_set_of_ne _ _ (by omega), Memory.get_set_self]

/-- Everything a word write in range does. -/
theorem State.writeWord_spec (s : State) {w : Nat} (v : Word) (hw : w < 32768) :
    ∃ s', s.writeWord w v = .ok s' ∧ s' = { s with mem := s'.mem } ∧
      s'.mem.get (2 * w) = highByte v ∧ s'.mem.get (2 * w + 1) = lowByte v ∧
      ∀ x, x ≠ 2 * w → x ≠ 2 * w + 1 → s'.mem.get x = s.mem.get x := by
  refine ⟨_, s.writeWord_of_lt v hw, rfl, Memory.get_setPair_first _ _ _ _,
    Memory.get_set_self _ _ _, fun x h1 h2 => ?_⟩
  rw [Memory.get_set_of_ne _ _ h2, Memory.get_set_of_ne _ _ h1]

/-- Settles O39: the two bytes of the written word are its quotient and remainder by 256. -/
theorem wordWriteIsHighByteFirst : Obligations.WordWriteIsHighByteFirst := by
  refine fun s w v => ⟨fun hw => s.writeWord_of_ge v hw, fun hw => ?_⟩
  obtain ⟨s', hwrite, hregs, hhi, hlo, hframe⟩ := s.writeWord_spec v hw
  exact ⟨s', hwrite, hregs, by rw [hhi, highByte_toNat], by rw [hlo, lowByte_toNat], hframe⟩

/-- Settles O40: what a 16-bit read can do, at the addresses below, at and above the last one. -/
theorem wideReadsAreBigEndian : Obligations.WideReadsAreBigEndian := by
  refine ⟨fun s addr h => ?_, fun s addr h => ?_, fun s w => ⟨fun _ => rfl, s.readWord_of_ge⟩⟩
  · have hin : addr + 1 < capacity := by
      simp only [capacity]
      omega
    exact ⟨_, by rw [State.readPair_eq, if_pos hin], beWord_toNat _ _⟩
  · split
    · rename_i hlast
      rw [hlast, State.readPair_eq]
      rfl
    · exact s.readPair_of_ge (by simp only [capacity]; omega)

/-- Settles O41: a write that answers was in range, where the read gives the stored byte, or the two
stored bytes put together. -/
theorem writesReadBack : Obligations.WritesReadBack := by
  refine ⟨fun s s' addr v h => ?_, fun s s' w v h => ?_, fun s w v hw => ?_⟩
  · obtain hin | hout := Nat.lt_or_ge addr capacity
    · cases (s.writeByte_of_lt v hin).symm.trans h
      rw [State.readByte_of_lt _ hin, Memory.get_set_self]
    · cases (s.writeByte_of_ge v hout).symm.trans h
  · obtain hin | hout := Nat.lt_or_ge w 32768
    · cases (s.writeWord_of_lt v hin).symm.trans h
      rw [State.readWord_of_lt _ hin, Memory.get_setPair_first, Memory.get_set_self,
        beWord_highByte_lowByte]
    · cases (s.writeWord_of_ge v hout).symm.trans h
  · exact ⟨_, s.writeWord_of_lt v hw⟩

/-! ### The stack's bytes -/

/-- Settles O42: an even `sp - 2` is a word's address and `sp - 1` the next, so the byte pushed last
is read as the high one. -/
theorem stackOrderIsNotWordOrder : Obligations.StackOrderIsNotWordOrder := by
  intro s w hw
  have hlt : (s.sp - 2#16).toNat < 65536 := (s.sp - 2#16).isLt
  have hnext : 2 * w + 1 = (s.sp - 1#16).toNat := by bv_omega
  refine ⟨_, _, exec_pushBC_eq s, State.readWord_of_lt _ (by omega), ?_⟩
  rw [beWord_toNat, hnext, ← hw, Memory.get_set_self, Memory.get_push_high]

/-- A state whose byte at `pc` is known shows it first to the decoder. -/
theorem State.head?_instrBytes (s : State) : s.instrBytes.head? = some (s.mem.get s.pc.toNat) := by
  rw [State.instrBytes_eq, List.head?_cons]

theorem step_of_unmapped {s : State} (h : decodeOpcode (s.mem.get s.pc.toNat) = none) :
    step s = .fault (.unimplementedOpcode (s.mem.get s.pc.toNat) s.pc) :=
  step_eq_fault_iff.mpr (State.fetchInstr_of_none h)

/-- What the next step makes of a byte known to stand at `pc`. -/
theorem fetches_byte_at_pc {s : State} {v : Byte} (h : s.mem.get s.pc.toNat = v) :
    s.instrBytes.head? = some v ∧
      (decodeOpcode v = none → step s = .fault (.unimplementedOpcode v s.pc)) := by
  subst h
  exact ⟨s.head?_instrBytes, step_of_unmapped⟩

/-- Settles O43: a read of memory after the push gives the pushed byte, and the fetch is such a
read. -/
theorem pushedBytesAreFetched : Obligations.PushedBytesAreFetched := by
  refine fun s => ⟨_, exec_pushBC_eq s, fun hpc => ?_, fun hpc => ?_⟩
  · exact fetches_byte_at_pc (by rw [hpc]; exact Memory.get_push_high _ _ _ _)
  · exact fetches_byte_at_pc (by rw [hpc]; exact Memory.get_set_self _ _ _)

end Sys2Proof.Machine
end

section
/-! PROOFS. The named regions and the register pairs (spec/20_memory.md section 7,
spec/10_state.md section 2). -/

namespace Sys2Proof.Machine

theorem Region.holds_iff (r : Region) (addr : Nat) :
    r.holds addr = true ↔ r.first ≤ addr ∧ addr ≤ r.last := by
  rw [Region.holds, Bool.and_eq_true, decide_eq_true_iff, decide_eq_true_iff]

theorem Region.mem_all (r : Region) : r ∈ Region.all := by
  cases r <;> decide

theorem Region.last_lt_capacity (r : Region) : r.last < capacity := by
  cases r <;> decide

/-- Two regions that hold the same address are one: the ranges are disjoint. -/
theorem Region.eq_of_holds {r r' : Region} {addr : Nat} (h : r.holds addr = true)
    (h' : r'.holds addr = true) : r' = r := by
  obtain ⟨hfirst, hlast⟩ := (r.holds_iff addr).mp h
  obtain ⟨hfirst', hlast'⟩ := (r'.holds_iff addr).mp h'
  have hdisjoint : ∀ q q' : Region, q.first ≤ q'.last → q'.first ≤ q.last → q' = q := by
    intro q q'
    cases q <;> cases q' <;> decide
  exact hdisjoint r r' (hfirst.trans hlast') (hfirst'.trans hlast)

/-- The ranges leave no gap: each begins one above the end of the one before. -/
theorem Region.exists_holds {addr : Nat} (h : addr < 65536) :
    ∃ r : Region, r.first ≤ addr ∧ addr ≤ r.last := by
  by_contra hnone
  simp only [not_exists, not_and, not_le] at hnone
  have h0 := hnone .cartridgeRom0 (Nat.zero_le _)
  have h1 := hnone .cartridgeRom1 h0
  have h2 := hnone .graphicsRam h1
  have h3 := hnone .cartridgeExternalRam h2
  have h4 := hnone .workingRam h3
  have h5 := hnone .workingRamShadow h4
  have h6 := hnone .graphicsSpriteInfo h5
  have h7 := hnone .memoryMappedIo h6
  have h8 : 65535 < addr := hnone .zeroPageRam h7
  omega

/-- The region an address lies in is the one that holds it. -/
theorem regionOf_eq_some_of_holds {r : Region} {addr : Nat} (h : r.holds addr = true) :
    regionOf addr = some r := by
  obtain ⟨r', hr'⟩ : ∃ r', regionOf addr = some r' :=
    Option.isSome_iff_exists.mp (List.find?_isSome.mpr ⟨r, r.mem_all, h⟩)
  have hheld : r'.holds addr = true := List.find?_some (p := (Region.holds · addr)) hr'
  rw [hr', Region.eq_of_holds h hheld]

/-- Settles O44: the ranges cover the array, no two share an address, and none goes beyond it. -/
theorem regionsTileTheArray : Obligations.RegionsTileTheArray := by
  refine ⟨rfl, fun addr => ⟨fun hin => ?_, fun hout => ?_⟩⟩
  · obtain ⟨r, hr⟩ := Region.exists_holds hin
    have hholds := (r.holds_iff addr).mpr hr
    refine ⟨r, regionOf_eq_some_of_holds hholds, fun r' => ⟨fun hr' => ?_, ?_⟩⟩
    · exact Region.eq_of_holds hholds ((r'.holds_iff addr).mpr hr')
    · rintro rfl
      exact hr
  · refine List.find?_eq_none.mpr fun r _ h => ?_
    obtain ⟨-, hlast⟩ := (r.holds_iff addr).mp h
    have hcap := r.last_lt_capacity
    simp only [capacity] at hcap
    omega

theorem State.pair_toNat (s : State) (p : Pair) :
    (s.pair p).toNat = (s.reg p.high).toNat * 256 + (s.reg p.low).toNat :=
  beWord_toNat _ _

/-- Settles O45: a pair is read from its two registers, so a write to one of them shows in it. -/
theorem pairsAreViews : Obligations.PairsAreViews :=
  fun s v => ⟨s.pair_toNat .bc, s.pair_toNat .de, s.pair_toNat .hl, (s.setReg .h v).pair_toNat .hl,
    (s.setReg .l v).pair_toNat .hl⟩

end Sys2Proof.Machine
end

section
/-! PROOFS. Reset, the host's moves and its set-up (spec/70_reset_and_hazards.md sections 1 and 3,
spec/60_exceptions.md section 2). -/

namespace Sys2Proof.Machine

/-! ### Reset -/

/-- Settles O47. -/
theorem resetValues : Obligations.ResetValues :=
  ⟨rfl, State.reset_mem_get, fun _ => rfl⟩

/-- Reset looks at memory only. -/
theorem State.resetRegisters_congr {s s' : State} (h : s'.mem = s.mem) :
    s.resetRegisters = s'.resetRegisters := by
  rw [State.resetRegisters, State.resetRegisters, h]

theorem State.resetRegisters_twice (s : State) :
    s.resetRegisters.resetRegisters = s.resetRegisters :=
  State.resetRegisters_congr s.resetRegisters_mem.symm

/-- Settles O48: on a running machine the second Reset finds the memory the first left; a stopped one
makes no move. -/
theorem resetIsIdempotent : Obligations.ResetIsIdempotent := by
  refine ⟨fun s => ⟨Session.move_reset s, Session.move_reset s⟩, fun x => ?_,
    fun s s' h => State.resetRegisters_congr h⟩
  obtain ⟨s, stop⟩ := x
  cases stop with
  | some stop => rw [Session.move_of_stop rfl, Session.move_of_stop rfl]
  | none => rw [Session.move_reset, Session.move_reset, State.resetRegisters_twice]

/-! ### Moves -/

/-- Settles O50, by induction on the moves: each finds the machine stopped. -/
theorem recordedFaultIsPermanent : Obligations.RecordedFaultIsPermanent := by
  intro x f moves h
  induction moves with
  | nil => rfl
  | cons mv rest ih => rw [Session.moves_cons, Session.move_of_stop h, ih]

/-- Settles O58: a running machine keeps the outcome of its move. -/
theorem runningMachineTakesEachMove : Obligations.RunningMachineTakesEachMove := by
  refine ⟨fun s s' h => ?_, Session.move_reset, fun s s' o h => ?_, Session.moves_nil,
    Session.moves_cons⟩
  · rw [Session.move_step, h, Session.record_next]
  · rw [Session.move_invoke, h, Session.record_next]

/-! ### Set-up moves -/

/-- Settles O59: each move is one of the state's writes, with the frame of that write. -/
theorem setupMovesWriteWhatTheyName : Obligations.SetupMovesWriteWhatTheyName := by
  refine fun s => ⟨fun addr v hin => ?_, fun w v hw => ?_, fun r v => ?_, fun z n h c => rfl,
    fun v => ⟨rfl, rfl⟩, fun m => rfl⟩
  · obtain ⟨-, hwrite⟩ := byteWriteChangesOneByte s addr v
    exact hwrite hin
  · obtain ⟨s', hwrite, hregs, hhi, hlo, hframe⟩ := s.writeWord_spec v hw
    refine ⟨s', hwrite, hregs, ?_, hframe⟩
    rw [hhi, hlo, ← beWord_toNat, beWord_highByte_lowByte]
  · refine ⟨s.setReg r v, rfl, ?_, fun r' hr' => ?_, s.setReg_f r v, s.setReg_pc r v,
      s.setReg_sp r v, s.setReg_m r v, s.setReg_t r v, s.setReg_mem r v⟩
    · rw [State.reg_setReg, if_pos rfl]
    · rw [State.reg_setReg, if_neg hr'.symm]

/-- Settles O60: the first move decides, and a write outside the array is a fault. -/
theorem faultingSetupHasNoState : Obligations.FaultingSetupHasNoState :=
  fun s => ⟨s.setupAll_nil, fun _ _ rest h => State.setupAll_cons_of_ok h rest,
    fun _ v rest hout => State.setupAll_cons_of_error (x := .writeByte _ v)
      (s.writeByte_of_ge v hout) rest,
    fun _ v rest hout => State.setupAll_cons_of_error (x := .writeWord _ v)
      (s.writeWord_of_ge v hout) rest⟩

end Sys2Proof.Machine
end
